-- ==== Sys2Proof/Word.lean ====
section
/-!
DEFINITION. The word type of the block. Every value on the wire and in every buffer is one byte (spec R7, R52, R70).
-/

namespace Sys2Proof

/-- A byte `b[7:0]`; bit 0 is the least significant (R7, R17, R70). -/
abbrev Byte := BitVec 8

end Sys2Proof
end

