-- ==== Sys2Proof/Config.lean ====
section
/-!
DEFINITION. The configuration `C` of the block (spec R8 to R16, R29), fixed by construction and registration, and the
free values: constants without a body, for the values the spec leaves to the environment or leaves undefined.
-/

namespace Sys2Proof

/-- `ESCAPE_POLICY` (R11): what a byte after `DLE` must be. -/
inductive EscapePolicy where
  /-- any byte after `DLE` is literal data (the default) -/
  | liberal
  /-- only `STX`, `ETX` and `DLE` may follow `DLE` -/
  | strict
deriving DecidableEq, Repr

/-- `ATTN_IN_DATA` (R12; 90_conflicts.md C1): what an unescaped 0xFF does in `MAYBE_DATA_NEXT`. -/
inductive AttnInData where
  /-- it ends the frame (the default, the source's transition table) -/
  | dispatch
  /-- it is payload data -/
  | append
deriving DecidableEq, Repr

/-- `R_LEN_POLICY` (R13; 90_conflicts.md C4): the payload length of the poll response. -/
inductive RLenPolicy where
  /-- `n / 8 + 1` bytes (the default) -/
  | plusOne
  /-- `(n + 7) / 8` bytes -/
  | ceil
deriving DecidableEq, Repr

/-- The configuration fields C0 and C2 to C8 of R29. C1, `NODE_ADDRESS`, is computed from C0 (R9).
`localId` is a `Fin 128`: a block with another id is not constructed (R8). -/
structure Config where
  /-- C0 `LOCAL_ID`, 0..127 (R8) -/
  localId : Fin 128
  /-- C2 `MAX_MSG_LEN` (R10) -/
  maxMsgLen : Nat
  /-- C3 `ESCAPE_POLICY` (R11) -/
  escapePolicy : EscapePolicy
  /-- C4 `ATTN_IN_DATA` (R12) -/
  attnInData : AttnInData
  /-- C5 `R_LEN_POLICY` (R13) -/
  rLenPolicy : RLenPolicy
  /-- C6 `INPUT_COUNT` (R14) -/
  inputCount : Option Nat
  /-- C7 `OUTPUT_COUNT` (R14) -/
  outputCount : Option Nat
  /-- C8 `INIT_PRESENT` (R15) -/
  initPresent : Bool
deriving DecidableEq, Repr

/-- The parameters at the defaults of R16, nothing registered (R14, R15, R29).
`LOCAL_ID` has no default in the spec; 5 is the id of the source's scenario W1 and of every vector
(DESIGN CHOICE, log entry 1, unsafe). -/
def Config.reference : Config where
  localId := 5
  maxMsgLen := 72
  escapePolicy := .liberal
  attnInData := .dispatch
  rLenPolicy := .plusOne
  inputCount := none
  outputCount := none
  initPresent := false

/-- The answer to the `k`-th input query for which the environment's list holds no answer: a draw under no law
(R203, 93_implementation_defined.md I6). Free value, log entry 4. -/
opaque Config.freeInputLine : Nat → Bool

/-- What a byte of buffer storage that holds no defined value reads as, by its address (R51, I7).
Free value, log entry 9. -/
opaque Config.undefinedByte : Nat → Byte

/-- What an element outside a line bank reads as, by its index; no rule of the spec reads one (R27).
Free value, log entry 9. -/
opaque Config.undefinedLine : Nat → Bool

end Sys2Proof
end

