-- ==== Sys2Proof/Syntax.lean ====
section
/-!
DEFINITION. The instructions of the block: one constructor per row of spec/opcode_table.json. The block runs no
program (spec R30, R62): an instruction is a cell of the parser's transition table selected by a received byte, a
message type selected by a frame's type byte, or an internal operation.
-/

namespace Sys2Proof

/-- The parser state register `S.state` (R21). -/
inductive ParserState where
  | start | attnNext | stxNext | addrNext | typeNext | maybeDataNext | dataNext
deriving DecidableEq, Repr

/-- The five byte classes (R72). -/
inductive ByteClass where
  | attn | stx | dle | etx | other
deriving DecidableEq, Repr

/-- One constructor per row of the opcode table, in its order. A cell whose class is one byte value has no operand;
a cell whose class holds several byte values carries the byte `b`. -/
inductive Instr where
  /-- RX_START_ATTN (R101) -/
  | rxStartAttn
  /-- RX_START_STX (R102) -/
  | rxStartStx
  /-- RX_START_ETX (R102) -/
  | rxStartEtx
  /-- RX_START_DLE (R102) -/
  | rxStartDle
  /-- RX_START_OTHER (R102) -/
  | rxStartOther (b : Byte)
  /-- RX_ATTN_NEXT_ATTN (R103) -/
  | rxAttnNextAttn
  /-- RX_ATTN_NEXT_STX (R104) -/
  | rxAttnNextStx
  /-- RX_ATTN_NEXT_ETX (R104) -/
  | rxAttnNextEtx
  /-- RX_ATTN_NEXT_DLE (R104) -/
  | rxAttnNextDle
  /-- RX_ATTN_NEXT_OTHER (R104) -/
  | rxAttnNextOther (b : Byte)
  /-- RX_STX_NEXT_STX (R105) -/
  | rxStxNextStx
  /-- RX_STX_NEXT_ATTN (R106) -/
  | rxStxNextAttn
  /-- RX_STX_NEXT_ETX (R106) -/
  | rxStxNextEtx
  /-- RX_STX_NEXT_DLE (R106) -/
  | rxStxNextDle
  /-- RX_STX_NEXT_OTHER (R106) -/
  | rxStxNextOther (b : Byte)
  /-- RX_ADDR_NEXT_ANY (R107) -/
  | rxAddrNextAny (b : Byte)
  /-- RX_TYPE_NEXT_ANY (R108) -/
  | rxTypeNextAny (b : Byte)
  /-- RX_MAYBE_DATA_NEXT_ETX (R109) -/
  | rxMaybeDataNextEtx
  /-- RX_MAYBE_DATA_NEXT_ATTN (R110) -/
  | rxMaybeDataNextAttn
  /-- RX_MAYBE_DATA_NEXT_STX (R111) -/
  | rxMaybeDataNextStx
  /-- RX_MAYBE_DATA_NEXT_OTHER (R112) -/
  | rxMaybeDataNextOther (b : Byte)
  /-- RX_MAYBE_DATA_NEXT_DLE (R113) -/
  | rxMaybeDataNextDle
  /-- RX_DATA_NEXT_ANY_LIBERAL (R114) -/
  | rxDataNextAnyLiberal (b : Byte)
  /-- RX_DATA_NEXT_CTRL_STRICT (R115) -/
  | rxDataNextCtrlStrict (b : Byte)
  /-- RX_DATA_NEXT_NONCTRL_STRICT (R115) -/
  | rxDataNextNonctrlStrict (b : Byte)
  /-- MSG_I (R142) -/
  | msgI
  /-- MSG_T (R143) -/
  | msgT
  /-- MSG_P (R144) -/
  | msgP
  /-- MSG_OTHER (R147), with the type byte -/
  | msgOther (t : Byte)
  /-- MSG_R (R144, R80): the transmitted poll response -/
  | msgR
  /-- DISPATCH (R140) -/
  | dispatch
  /-- CODEC_GETBIT (R170) -/
  | codecGetbit (buf : List Byte) (bufferLen bitIndex : Nat)
  /-- CODEC_SETBIT (R171) -/
  | codecSetbit (buf : List Byte) (bufferLen bitIndex : Nat) (value : Bool)
  /-- CODEC_PACK (R172) -/
  | codecPack (bank : List Bool) (n len : Nat)
  /-- CODEC_UNPACK (R173) -/
  | codecUnpack (buf : List Byte) (len n : Nat)
  /-- ENCODE (R185) -/
  | encode (t : Byte) (payload : List Byte)
  /-- SERVICE (R201) -/
  | service
deriving DecidableEq, Repr

end Sys2Proof
end

