-- ==== Sys2Proof/WellFormed.lean ====
section
/-!
DEFINITION. Which terms of `Instr` the opcode table admits: the byte a cell carries lies in the cell's class (the
table's "excludes" lists), and the operands of a codec operation describe the storage they name (spec R170, R172).
-/

namespace Sys2Proof

/-- A byte of class `OTHER`: none of the table's excluded values FF, 02, 03, 10. -/
def isOtherByte (b : Byte) : Bool :=
  b != 0xFF && b != 0x02 && b != 0x03 && b != 0x10

/-- A byte `STRICT` accepts after `DLE` (R115): 02, 03 or 10. -/
def isStrictEscapable (b : Byte) : Bool :=
  b == 0x02 || b == 0x03 || b == 0x10

/-- A type byte of row MSG_OTHER: not 49, 54 or 50. -/
def isOtherTag (t : Byte) : Bool :=
  t != 0x49 && t != 0x54 && t != 0x50

/-- The table admits this term. -/
def Instr.wf : Instr → Bool
  | .rxStartOther b => isOtherByte b
  | .rxAttnNextOther b => isOtherByte b
  | .rxStxNextOther b => isOtherByte b
  | .rxMaybeDataNextOther b => isOtherByte b
  | .rxDataNextCtrlStrict b => isStrictEscapable b
  | .rxDataNextNonctrlStrict b => !isStrictEscapable b
  | .msgOther t => isOtherTag t
  | .codecGetbit buf bufferLen _ => decide (bufferLen ≤ buf.length)
  | .codecSetbit buf bufferLen _ _ => decide (bufferLen ≤ buf.length)
  | .codecPack bank n _ => decide (n = bank.length)
  | .codecUnpack buf len _ => decide (len ≤ buf.length)
  | .rxStartAttn => true
  | .rxStartStx => true
  | .rxStartEtx => true
  | .rxStartDle => true
  | .rxAttnNextAttn => true
  | .rxAttnNextStx => true
  | .rxAttnNextEtx => true
  | .rxAttnNextDle => true
  | .rxStxNextStx => true
  | .rxStxNextAttn => true
  | .rxStxNextEtx => true
  | .rxStxNextDle => true
  | .rxAddrNextAny _ => true
  | .rxTypeNextAny _ => true
  | .rxMaybeDataNextEtx => true
  | .rxMaybeDataNextAttn => true
  | .rxMaybeDataNextStx => true
  | .rxMaybeDataNextDle => true
  | .rxDataNextAnyLiberal _ => true
  | .msgI => true
  | .msgT => true
  | .msgP => true
  | .msgR => true
  | .dispatch => true
  | .encode _ _ => true
  | .service => true

end Sys2Proof
end

