-- ==== Sys2Proof/Decode.lean ====
section
/-!
DEFINITION. The decoder and, after it, the encoder (spec 30_encoding.md). A byte has no meaning by itself: where it is
read decides which rows of the opcode table it can select (R72, R82, and the table's "format"). Three places are read:
a received byte in a parser state, the message-type byte of a dispatched frame, the message-type byte of a transmitted
frame. The seven internal operations have no byte encoding.
-/

namespace Sys2Proof

/-- `ATTN` (R71). -/
def ATTN : Byte := 0xFF
/-- `STX` (R71). -/
def STX : Byte := 0x02
/-- `ETX` (R71). -/
def ETX : Byte := 0x03
/-- `DLE` (R71). -/
def DLE : Byte := 0x10

/-- The tag `'I'` (R80; ASCII, the spec's general knowledge G1, log entry 12). -/
def tagI : Byte := 0x49
/-- The tag `'T'` (R80; G1). -/
def tagT : Byte := 0x54
/-- The tag `'P'` (R80; given by the source). -/
def tagP : Byte := 0x50
/-- The tag `'R'` (R80; G1). -/
def tagR : Byte := 0x52

/-- The class of a received byte (R72). -/
def byteClass (b : Byte) : ByteClass :=
  if b = ATTN then .attn
  else if b = STX then .stx
  else if b = DLE then .dle
  else if b = ETX then .etx
  else .other

/-- The row a received byte selects (R82, R100): by the parser state and the byte's class, and in `DATA_NEXT` by the
escape policy (R114, R115). Total: every pair has exactly one cell (R119). -/
def decodeRx (policy : EscapePolicy) (st : ParserState) (b : Byte) : Instr :=
  match st, byteClass b with
  | .start, .attn => .rxStartAttn
  | .start, .stx => .rxStartStx
  | .start, .etx => .rxStartEtx
  | .start, .dle => .rxStartDle
  | .start, .other => .rxStartOther b
  | .attnNext, .attn => .rxAttnNextAttn
  | .attnNext, .stx => .rxAttnNextStx
  | .attnNext, .etx => .rxAttnNextEtx
  | .attnNext, .dle => .rxAttnNextDle
  | .attnNext, .other => .rxAttnNextOther b
  | .stxNext, .stx => .rxStxNextStx
  | .stxNext, .attn => .rxStxNextAttn
  | .stxNext, .etx => .rxStxNextEtx
  | .stxNext, .dle => .rxStxNextDle
  | .stxNext, .other => .rxStxNextOther b
  | .addrNext, _ => .rxAddrNextAny b
  | .typeNext, _ => .rxTypeNextAny b
  | .maybeDataNext, .etx => .rxMaybeDataNextEtx
  | .maybeDataNext, .attn => .rxMaybeDataNextAttn
  | .maybeDataNext, .stx => .rxMaybeDataNextStx
  | .maybeDataNext, .other => .rxMaybeDataNextOther b
  | .maybeDataNext, .dle => .rxMaybeDataNextDle
  | .dataNext, c =>
    match policy, c with
    | .liberal, _ => .rxDataNextAnyLiberal b
    | .strict, .stx => .rxDataNextCtrlStrict b
    | .strict, .etx => .rxDataNextCtrlStrict b
    | .strict, .dle => .rxDataNextCtrlStrict b
    | .strict, .attn => .rxDataNextNonctrlStrict b
    | .strict, .other => .rxDataNextNonctrlStrict b

/-- The row the message-type byte of a dispatched frame selects (R80, R141). An inbound `'R'` is an unknown tag (R147). -/
def decodeTag (t : Byte) : Instr :=
  if t = tagI then .msgI
  else if t = tagT then .msgT
  else if t = tagP then .msgP
  else .msgOther t

/-- The row the message-type byte of a transmitted frame selects: the block transmits only `'R'` (R80, R148). -/
def decodeTxTag (t : Byte) : Option Instr :=
  if t = tagR then some .msgR else none

/-- Where a byte is read, the opcode table's "format". -/
inductive Site where
  /-- a received byte, in a parser state and under an escape policy -/
  | rx (st : ParserState) (policy : EscapePolicy)
  /-- the message-type byte of a dispatched frame with dest = NODE_ADDRESS -/
  | msgType
  /-- the message-type byte of a transmitted frame -/
  | txType
deriving DecidableEq, Repr

/-- Why bytes are no instruction. -/
inductive DecodeError where
  /-- there is no byte to decode -/
  | noByte
  /-- the block transmits no frame of this type (R148) -/
  | notTransmitted (t : Byte)
deriving DecidableEq, Repr

/-- What the decoder answers: an instruction and the bytes after it, or a rejection by name. -/
inductive Decoded where
  | instr (i : Instr) (rest : List Byte)
  | rejected (e : DecodeError)
deriving DecidableEq, Repr

/-- The decoder: total on any bytes; an instruction is one byte (R70). -/
def decode : Site → List Byte → Decoded
  | _, [] => .rejected .noByte
  | .rx st policy, b :: rest => .instr (decodeRx policy st b) rest
  | .msgType, t :: rest => .instr (decodeTag t) rest
  | .txType, t :: rest =>
    match decodeTxTag t with
    | some i => .instr i rest
    | none => .rejected (.notTransmitted t)

/-- The encoder, from the table's "match" columns: where the instruction is read and its byte. A cell whose row names
no policy is read alike under both (`liberal` here). `none` for the rows the table calls "not byte-selected" or a host
call: they have no bytes. -/
def encode : Instr → Option (Site × List Byte)
  | .rxStartAttn => some (.rx .start .liberal, [0xFF])
  | .rxStartStx => some (.rx .start .liberal, [0x02])
  | .rxStartEtx => some (.rx .start .liberal, [0x03])
  | .rxStartDle => some (.rx .start .liberal, [0x10])
  | .rxStartOther b => some (.rx .start .liberal, [b])
  | .rxAttnNextAttn => some (.rx .attnNext .liberal, [0xFF])
  | .rxAttnNextStx => some (.rx .attnNext .liberal, [0x02])
  | .rxAttnNextEtx => some (.rx .attnNext .liberal, [0x03])
  | .rxAttnNextDle => some (.rx .attnNext .liberal, [0x10])
  | .rxAttnNextOther b => some (.rx .attnNext .liberal, [b])
  | .rxStxNextStx => some (.rx .stxNext .liberal, [0x02])
  | .rxStxNextAttn => some (.rx .stxNext .liberal, [0xFF])
  | .rxStxNextEtx => some (.rx .stxNext .liberal, [0x03])
  | .rxStxNextDle => some (.rx .stxNext .liberal, [0x10])
  | .rxStxNextOther b => some (.rx .stxNext .liberal, [b])
  | .rxAddrNextAny b => some (.rx .addrNext .liberal, [b])
  | .rxTypeNextAny b => some (.rx .typeNext .liberal, [b])
  | .rxMaybeDataNextEtx => some (.rx .maybeDataNext .liberal, [0x03])
  | .rxMaybeDataNextAttn => some (.rx .maybeDataNext .liberal, [0xFF])
  | .rxMaybeDataNextStx => some (.rx .maybeDataNext .liberal, [0x02])
  | .rxMaybeDataNextOther b => some (.rx .maybeDataNext .liberal, [b])
  | .rxMaybeDataNextDle => some (.rx .maybeDataNext .liberal, [0x10])
  | .rxDataNextAnyLiberal b => some (.rx .dataNext .liberal, [b])
  | .rxDataNextCtrlStrict b => some (.rx .dataNext .strict, [b])
  | .rxDataNextNonctrlStrict b => some (.rx .dataNext .strict, [b])
  | .msgI => some (.msgType, [0x49])
  | .msgT => some (.msgType, [0x54])
  | .msgP => some (.msgType, [0x50])
  | .msgOther t => some (.msgType, [t])
  | .msgR => some (.txType, [0x52])
  | .dispatch => none
  | .codecGetbit _ _ _ => none
  | .codecSetbit _ _ _ _ => none
  | .codecPack _ _ _ => none
  | .codecUnpack _ _ _ => none
  | .encode _ _ => none
  | .service => none

/-- The bytes of a table word: `nbits` in whole bytes, the least significant first. -/
def layoutWord (nbits w : Nat) : List Byte :=
  (List.range (nbits / 8)).map fun k => BitVec.ofNat 8 (w / 256 ^ k)

/-- Where a byte of the opcode table is read when the table's number is all there is: the table gives several rows the
same byte, and a row's parser state and format are no bits of it. A byte that is the whole match of a message-type row
is read as a message type; every other byte is read in `START`, the state after reset (log entry 11). -/
def tableSite (b : Byte) : Site :=
  if b = tagI ∨ b = tagT ∨ b = tagP then .msgType
  else if b = tagR then .txType
  else .rx .start .liberal

/-- The instruction the decoder reads from a word of the opcode table, read at `tableSite` of its first byte. -/
def decodeTableWord (nbits w : Nat) : Option Instr :=
  match layoutWord nbits w with
  | [] => none
  | b :: rest =>
    match decode (tableSite b) (b :: rest) with
    | .instr i _ => some i
    | .rejected _ => none

end Sys2Proof
end

