-- ==== Sys2Proof/Machine/State.lean ====
section
/-!
DEFINITION. The state of the machine: the record `S` of spec R20, the configuration `C` of R29 it was built with, and
the environment's side of the interface as plain data (the bytes it delivers, the calls it makes, the answers it
gives, the events it has been shown).
-/

namespace Sys2Proof.Machine

/-- The in-flight message record `S.msg` (R23). `payload` is the address space `PAYLOAD` (R50): the byte at address
`k` is the list's element `k`; addresses at and above `length` hold no defined value and are not listed (R51). -/
structure InFlightMessage where
  dest : Byte
  mtype : Byte
  payload : List Byte
  length : Nat
deriving DecidableEq, Repr

/-- The five diagnostic counters (R28), unbounded naturals (D5). -/
structure Counters where
  bytesSeen : Nat
  framesSeen : Nat
  framesProcessed : Nat
  parserErrors : Nat
  pollTicks : Nat
deriving DecidableEq, Repr

/-- An output event (R203): one call the block makes into the environment. -/
inductive Event where
  /-- `TxByte(b)`: `writeByte(b)` -/
  | txByte (b : Byte)
  /-- `InputQuery(i, v)`: the query callback for line `i`, which answered `v` -/
  | inputQuery (i : Nat) (v : Bool)
  /-- `InitCall(bytes, len)`: the initialization callback -/
  | initCall (bytes : List Byte) (len : Nat)
  /-- `OutputLine(i, v)`: the per-line output callback -/
  | outputLine (i : Nat) (v : Bool)
  /-- `OutputBulk(n, values)`: the bulk output callback -/
  | outputBulk (n : Nat) (values : List Bool)
deriving DecidableEq, Repr

/-- The replies the environment gives (R203). -/
structure Answers where
  /-- the answers to the coming input queries, in query order -/
  lines : List Bool
  /-- the answers to the coming init calls, which the block ignores (R151) -/
  inits : List Bool
  /-- how many queries found `lines` empty and took the free value (log entry 4) -/
  draws : Nat
deriving DecidableEq, Repr

/-- How the environment breaks a duty of R206 in a call the block makes. -/
inductive BreachKind where
  /-- the callback or `writeByte` never returns (R260, D34, D35) -/
  | neverReturns
  /-- the callback calls `service()` or `feed()` while the step runs (R204, R264) -/
  | reenters
deriving DecidableEq, Repr

/-- The environment's coming breach: it behaves in the next `after` calls the block makes and breaks its duty in the
one after them (log entry 5). -/
structure Breach where
  after : Nat
  kind : BreachKind
deriving DecidableEq, Repr

/-- A move of the environment between two steps (R206, R250 to R254). -/
inductive HostCall where
  /-- `service()` (R201) -/
  | service
  /-- the transport will answer the coming `readByte()` calls with these (R200) -/
  | arrive (items : List (Option Byte))
  /-- the init registration (R251) -/
  | registerInit
  /-- the input registration, with its line count (R251) -/
  | registerInput (n : Nat)
  /-- the output registration, with its line count (R251) -/
  | registerOutput (n : Nat)
  /-- a hardware reset of the integrated block (R252) -/
  | hardwareReset
deriving DecidableEq, Repr

/-- What an internal operation run as an instruction returned to its caller (log entry 8). -/
inductive OpResult where
  | none
  | bit (v : Bool)
  | bytes (buf : List Byte)
  | bits (values : List Bool)
deriving DecidableEq, Repr

/-- The state. The first five fields are the spec's `S` (R20), `cfg` its `C` (R29); the others are the model's. -/
structure State where
  /-- the parser state register (R21) -/
  state : ParserState
  /-- the in-flight message (R23) -/
  msg : InFlightMessage
  /-- the input bank, present iff `cfg.inputCount` is (R27) -/
  ibank : Option (List Bool)
  /-- the output bank, present iff `cfg.outputCount` is (R27) -/
  obank : Option (List Bool)
  /-- the counters (R28) -/
  cnt : Counters
  /-- the configuration latched at construction and registration (R29) -/
  cfg : Config
  /-- registration is over: `service()` has been called or a byte fed (R251) -/
  frozen : Bool
  /-- `RX` (R50): what the coming `readByte()` calls answer, oldest first -/
  rx : List (Option Byte)
  /-- the environment's coming moves, oldest first -/
  pending : List HostCall
  /-- the environment's coming answers (R203) -/
  answers : Answers
  /-- the environment's coming breach of duty, if any (R206) -/
  breach : Option Breach
  /-- the events so far, oldest first (R203, R207); `TX` (R50) is their `txByte` part -/
  events : List Event
  /-- the last result of an internal operation run by itself -/
  result : OpResult
deriving DecidableEq, Repr

/-- Why the machine stops. The block itself has no fatal condition (R125). -/
inductive Fault where
  /-- Raised by every instruction that calls the environment, when a callback or `writeByte` never returns: the step
  has no successor (R260, D34, D35). Safe: the hardware is stuck there too. -/
  | stuck
deriving DecidableEq, Repr

/-- What the model gives no meaning to. -/
inductive Refusal where
  /-- Raised by `exec` for an instruction without a meaning; no arm does. Safe. -/
  | notModelled (mnemonic : String)
  /-- Raised when a callback re-enters the block during a step: refused by the spec (R204, R264). Safe. -/
  | reentrantCall
  /-- Raised by construction for a `LOCAL_ID` outside 0..127: refused by the spec (R8). Safe. -/
  | illegalLocalId (id : Nat)
  /-- Raised by construction for `MAX_MSG_LEN = 0`, which R10 does not admit. Safe. -/
  | illegalMaxMsgLen
  /-- Raised by a second registration of a kind: refused by the spec (R251). Safe. -/
  | registeredTwice
  /-- Raised by a registration after the configuration is frozen: refused by the spec (R251). Safe. -/
  | registeredLate
deriving DecidableEq, Repr

/-- The record a message reset leaves (R24; 0x00 is the spec's decision D16). -/
def InFlightMessage.cleared : InFlightMessage :=
  { dest := 0x00, mtype := 0x00, payload := [], length := 0 }

/-- All counters at their start value (R28, R36). -/
def Counters.zero : Counters :=
  { bytesSeen := 0, framesSeen := 0, framesProcessed := 0, parserErrors := 0, pollTicks := 0 }

/-- The block as construction leaves it, for a configuration with nothing registered (R250, R36), in an environment
that has delivered nothing, plans nothing and keeps its duties. -/
def State.constructed (cfg : Config) : State where
  state := .start
  msg := .cleared
  ibank := none
  obank := none
  cnt := .zero
  cfg := { cfg with inputCount := none, outputCount := none, initPresent := false }
  frozen := false
  rx := []
  pending := []
  answers := { lines := [], inits := [], draws := 0 }
  breach := none
  events := []
  result := .none

/-- The machine right after reset (R36, R250), with the parameters at the defaults of R16
(`LOCAL_ID`: DESIGN CHOICE, log entry 1). -/
def State.reset : State := State.constructed Config.reference

end Sys2Proof.Machine
end

