-- ==== Sys2Proof/Machine/Operands.lean ====
section
/-!
DEFINITION. How the block's operands are assembled (spec R86): the bit index split, the node address, the response
length, and the reads and writes of single bytes and bits of a buffer or a bank (R17, R56, R57).
-/

namespace Sys2Proof.Machine

/-- `NODE_ADDRESS = LOCAL_ID + 65` (R9, C1 of R29). -/
def nodeAddress (c : Config) : Byte := BitVec.ofNat 8 (c.localId.val + 65)

/-- `rlen(n)`, the payload length of the poll response for `n` lines (R145). -/
def rlen (policy : RLenPolicy) (n : Nat) : Nat :=
  match policy with
  | .plusOne => n / 8 + 1
  | .ceil => (n + 7) / 8

/-- The byte a bit index lies in (R53, R170). -/
def byteIndex (bitIndex : Nat) : Nat := bitIndex / 8

/-- The bit of that byte, from the least significant (R53, R170). -/
def bitOffset (bitIndex : Nat) : Nat := bitIndex % 8

/-- The mask `1 << offset` of a bit index (R53). -/
def bitMask (bitIndex : Nat) : Byte := 1#8 <<< bitOffset bitIndex

/-- `MemRead(buf, addr, 1)` (R17). Storage that does not exist holds no defined value (R51): a free value. -/
def memRead (buf : List Byte) (addr : Nat) : Byte := buf.getD addr (Config.undefinedByte addr)

/-- `MemWrite(buf, addr, 1, v)` (R17): a buffer never grows (R171). -/
def memWrite (buf : List Byte) (addr : Nat) (v : Byte) : List Byte := buf.set addr v

/-- `BitRead(bank, i)` (R17). No rule reads outside a bank (R27): a free value there. -/
def bitRead (bank : List Bool) (i : Nat) : Bool := bank.getD i (Config.undefinedLine i)

/-- `BitWrite(bank, i, v)` (R17): a bank is never resized (R14, R27). -/
def bitWrite (bank : List Bool) (i : Nat) (v : Bool) : List Bool := bank.set i v

end Sys2Proof.Machine
end

