-- ==== Sys2Proof/Machine/Ops.lean ====
section
/-!
DEFINITION. The shared operations of the machine: events and queries (spec R17, R203), the transport (R200), the
message record (R24, R25), the counters, the error transition (R220), and how a step ends.
-/

namespace Sys2Proof.Machine

/-- `emit E` (R17): append an event to the list. -/
def State.emit (e : Event) (s : State) : State :=
  { s with events := s.events ++ [e] }

/-- The bytes on `TX` so far (R50, R187): the `TxByte` events. -/
def State.tx (s : State) : List Byte :=
  s.events.filterMap fun e =>
    match e with
    | .txByte b => some b
    | _ => none

/-- `writeByte(b)` (R200, R187). -/
def State.writeByte (b : Byte) (s : State) : State := s.emit (.txByte b)

/-- `bytesAvailable()` (R200): no side effect (R58). -/
def State.bytesAvailable (s : State) : Nat := s.rx.length

/-- `readByte()` (R200, R58): remove and return the oldest item of `RX`. -/
def State.readByte (s : State) : Option Byte × State :=
  match s.rx with
  | [] => (none, s)
  | r :: rest => (r, { s with rx := rest })

/-- The environment's answer to an input query, and what is left of its answers: the next of its list, or the free
value where the list is empty (R203, log entry 4). -/
def Answers.nextLine (a : Answers) : Bool × Answers :=
  match a.lines with
  | v :: vs => (v, { a with lines := vs })
  | [] => (Config.freeInputLine a.draws, { a with draws := a.draws + 1 })

/-- `query InputLine(i)` (R17, R203): take the next answer, record the query as an event, return the answer. -/
def State.queryInputLine (i : Nat) (s : State) : Bool × State :=
  (s.answers.nextLine.1, { s with answers := s.answers.nextLine.2 }.emit (.inputQuery i s.answers.nextLine.1))

/-- The init callback is called and its answer is thrown away (R142, R151). -/
def State.callInit (bytes : List Byte) (len : Nat) (s : State) : State :=
  { s with answers := { s.answers with inits := s.answers.inits.tail } }.emit (.initCall bytes len)

/-- Message reset (R24). -/
def State.messageReset (s : State) : State :=
  { s with msg := .cleared }

/-- The canonical form of the payload storage (R23): `length` names exactly the bytes held, at most `MAX_MSG_LEN`. -/
def InFlightMessage.wf (max : Nat) (m : InFlightMessage) : Bool :=
  decide (m.length = m.payload.length) && decide (m.length ≤ max)

/-- `append(b)` (R25): `none` is the answer `false`, with no field changed. -/
def State.append (b : Byte) (s : State) : Option State :=
  if s.msg.length < s.cfg.maxMsgLen then
    some { s with msg := { s.msg with payload := s.msg.payload ++ [b], length := s.msg.length + 1 } }
  else none

/-- The causes of the error transition (R221): labels only. The block has no cause register. -/
inductive ErrorCause where
  | startNotAttn | attnNextNotAttn | stxNextNotStx | overflow | badEscape
deriving DecidableEq, Repr

/-- `raise FramingError(cause)` (R220), the block's one exception: the error counter, message reset, `START`. Nothing
is saved and nothing is reported; the cause is not recorded (R221). There is no return operation: recovery is the next
`ATTN` in `START` (R226). -/
def State.raiseFramingError (_cause : ErrorCause) (s : State) : State :=
  { { s with cnt := { s.cnt with parserErrors := s.cnt.parserErrors + 1 } }.messageReset with state := .start }

/-- The count every byte makes (R100, R33), and the end of the registration phase (R16: the parameters are fixed before
the first byte). -/
def State.countByte (s : State) : State :=
  { s with cnt := { s.cnt with bytesSeen := s.cnt.bytesSeen + 1 }, frozen := true }

/-- `state <- X` (R17). -/
def State.goto (p : ParserState) (s : State) : State := { s with state := p }

/-- Take `b` as payload data (R110 under `APPEND`, R111, R112, R114, R115): append it and expect more data, or an
overflow error. -/
def State.takeData (b : Byte) (s : State) : State :=
  match s.append b with
  | some t => t.goto .maybeDataNext
  | none => s.raiseFramingError .overflow

/-- How many calls into the environment lie between two states: one for each event (R203). -/
def callsMade (s t : State) : Nat := t.events.length - s.events.length

/-- How a step from `s` whose effects give `t` ends. If the environment keeps its duties in every call the step made,
the next state is `t`. If one of those calls never returns there is no successor (R260); if it re-enters the block the
model refuses it (R204). -/
def settle (s t : State) : Host.Outcome State Fault Refusal :=
  match s.breach with
  | none => .next t
  | some b =>
    if callsMade s t ≤ b.after then
      .next { t with breach := some { b with after := b.after - callsMade s t } }
    else
      match b.kind with
      | .neverReturns => .fault .stuck
      | .reenters => .refused .reentrantCall

/-- Run `k` on the next state of an outcome; a stop stays a stop. -/
def andThen (o : Host.Outcome State Fault Refusal) (k : State → Host.Outcome State Fault Refusal) :
    Host.Outcome State Fault Refusal :=
  match o with
  | .next s => k s
  | .fault r => .fault r
  | .refused r => .refused r

/-- `feed` with the cell `effect` (R100): count the byte, apply the cell, end the step. -/
def receive (effect : State → State) (s : State) : Host.Outcome State Fault Refusal :=
  settle s (effect s.countByte)

end Sys2Proof.Machine
end

