-- ==== Sys2Proof/Machine/Codec.lean ====
section
/-!
DEFINITION. The bit-array codec (spec 42_bit_codec.md) and the meanings of CODEC_GETBIT, CODEC_SETBIT, CODEC_PACK and
CODEC_UNPACK. Run as an instruction of its own, a codec operation leaves its result in `State.result` (log entry 8).
-/

namespace Sys2Proof.Machine

/-- `getBit` (R170): a bit beyond the buffer reads `false`. -/
def getBit (buf : List Byte) (bufferLen bitIndex : Nat) : Bool :=
  if byteIndex bitIndex ≥ bufferLen then false
  else (memRead buf (byteIndex bitIndex) &&& bitMask bitIndex) != 0#8

/-- `setBit` (R171): a read-modify-write of one byte; beyond the buffer, nothing (R175). -/
def setBit (buf : List Byte) (bufferLen bitIndex : Nat) (v : Bool) : List Byte :=
  if byteIndex bitIndex ≥ bufferLen then buf
  else
    let old := memRead buf (byteIndex bitIndex)
    memWrite buf (byteIndex bitIndex) (if v then old ||| bitMask bitIndex else old &&& ~~~(bitMask bitIndex))

/-- `pack` (R172): `len` zero bytes, then one `setBit` per line, in ascending order. -/
def pack (bank : List Bool) (n len : Nat) : List Byte :=
  (List.range n).foldl (fun buf i => setBit buf len i (bitRead bank i)) (List.replicate len 0#8)

/-- `unpack` (R173). -/
def unpack (buf : List Byte) (len n : Nat) : List Bool :=
  (List.range n).map fun i => getBit buf len i

/-- CODEC_GETBIT (R170). -/
def execCodecGetbit (buf : List Byte) (bufferLen bitIndex : Nat) (s : State) : Host.Outcome State Fault Refusal :=
  .next { s with result := .bit (getBit buf bufferLen bitIndex) }

/-- CODEC_SETBIT (R171). -/
def execCodecSetbit (buf : List Byte) (bufferLen bitIndex : Nat) (value : Bool) (s : State) :
    Host.Outcome State Fault Refusal :=
  .next { s with result := .bytes (setBit buf bufferLen bitIndex value) }

/-- CODEC_PACK (R172). -/
def execCodecPack (bank : List Bool) (n len : Nat) (s : State) : Host.Outcome State Fault Refusal :=
  .next { s with result := .bytes (pack bank n len) }

/-- CODEC_UNPACK (R173). -/
def execCodecUnpack (buf : List Byte) (len n : Nat) (s : State) : Host.Outcome State Fault Refusal :=
  .next { s with result := .bits (unpack buf len n) }

end Sys2Proof.Machine
end

