-- ==== Sys2Proof/Machine/Encoder.lean ====
section
/-!
DEFINITION. The output frame encoder (spec 43_frame_encoder.md) and the meaning of ENCODE.
-/

namespace Sys2Proof.Machine

/-- `esc(x)` (R186): 02, 03 and 10 get a `DLE` before them; FF does not. -/
def esc (x : Byte) : List Byte :=
  if x = STX ∨ x = ETX ∨ x = DLE then [DLE, x] else [x]

/-- The escaped form of a payload (R54, R185). -/
def escPayload (p : List Byte) : List Byte := p.flatMap esc

/-- The bytes of a frame with destination `d`, type `t` and payload `p` (R73; `FRAME` of R87). -/
def frameBytes (d t : Byte) (p : List Byte) : List Byte :=
  [ATTN, ATTN, STX, d, t] ++ escPayload p ++ [ETX]

/-- Write bytes to the transport, in order (R187). -/
def State.transmit (out : List Byte) (s : State) : State :=
  out.foldl (fun t x => t.writeByte x) s

/-- `encode(t, p)` (R185): the address byte is always `NODE_ADDRESS`; nothing is checked (R188). -/
def State.encodeFrame (t : Byte) (p : List Byte) (s : State) : State :=
  s.transmit (frameBytes (nodeAddress s.cfg) t p)

/-- ENCODE (R185). -/
def execEncode (t : Byte) (payload : List Byte) (s : State) : Host.Outcome State Fault Refusal :=
  settle s (s.encodeFrame t payload)

end Sys2Proof.Machine
end

