-- ==== Sys2Proof/Machine/Handlers.lean ====
section
/-!
DEFINITION. The message handlers (spec 41_dispatcher.md sections 2 to 5) and the meanings of MSG_I, MSG_T, MSG_P,
MSG_OTHER and MSG_R. Each handler is applied to the in-flight message `S.msg`.
-/

namespace Sys2Proof.Machine

/-- `init_handler` (R142): pass the payload out, if a callback is registered (D9). -/
def State.initHandler (m : InFlightMessage) (s : State) : State :=
  if s.cfg.initPresent then s.callInit (m.payload.take m.length) m.length else s

/-- `BitRead(OBANK, i)`. -/
def State.readOutput (s : State) (i : Nat) : Bool := bitRead (s.obank.getD []) i

/-- `BitWrite(OBANK, i, v)`. -/
def State.writeOutput (i : Nat) (v : Bool) (s : State) : State :=
  { s with obank := s.obank.map fun bank => bitWrite bank i v }

/-- `BitWrite(IBANK, i, v)`. -/
def State.writeInput (i : Nat) (v : Bool) (s : State) : State :=
  { s with ibank := s.ibank.map fun bank => bitWrite bank i v }

/-- One turn of the loop of R143, with its `changed` variable: a line that differs is updated and reported. -/
def applyLine (m : InFlightMessage) (sc : State × Bool) (i : Nat) : State × Bool :=
  let v := getBit m.payload m.length i
  if v != sc.1.readOutput i then ((sc.1.writeOutput i v).emit (.outputLine i v), true) else sc

/-- `apply_outputs` (R143): every line in ascending order, then the whole bank once if a line changed. -/
def State.applyOutputs (m : InFlightMessage) (s : State) : State :=
  match s.obank with
  | none => s
  | some bank =>
    let sc := (List.range bank.length).foldl (applyLine m) (s, false)
    if sc.2 then
      sc.1.emit (.outputBulk bank.length ((List.range bank.length).map sc.1.readOutput))
    else sc.1

/-- One turn of the sampling loop of R144: query line `i` and store the answer. -/
def sampleLine (s : State) (i : Nat) : State :=
  (s.queryInputLine i).2.writeInput i (s.queryInputLine i).1

/-- The sampling loop of R144, over all lines in ascending order. -/
def State.sampleInputs (n : Nat) (s : State) : State :=
  (List.range n).foldl sampleLine s

/-- The second half of R144: if the response is shorter than `MAX_MSG_LEN`, pack the input bank and send it in an `'R'`
frame; else nothing (R152). Without an input bank there is nothing to send. -/
def State.sendResponse (s : State) : State :=
  match s.ibank with
  | none => s
  | some bank =>
    let len := rlen s.cfg.rLenPolicy bank.length
    if len < s.cfg.maxMsgLen then s.encodeFrame tagR (pack bank bank.length len) else s

/-- `poll_inputs` (R144): sample every line, then respond. The message is not read (R146). -/
def State.pollInputs (s : State) : State :=
  match s.ibank with
  | none => s
  | some bank => (s.sampleInputs bank.length).sendResponse

/-- MSG_I (R142). -/
def execMsgI (s : State) : Host.Outcome State Fault Refusal := settle s (s.initHandler s.msg)

/-- MSG_T (R143). -/
def execMsgT (s : State) : Host.Outcome State Fault Refusal := settle s (s.applyOutputs s.msg)

/-- MSG_P (R144). -/
def execMsgP (s : State) : Host.Outcome State Fault Refusal := settle s s.pollInputs

/-- MSG_OTHER (R147): skipped without effect, whatever the type byte. -/
def execMsgOther (_t : Byte) (s : State) : Host.Outcome State Fault Refusal := settle s s

/-- MSG_R (R144, R80): the transmission of the poll response (log entry 10). -/
def execMsgR (s : State) : Host.Outcome State Fault Refusal := settle s s.sendResponse

end Sys2Proof.Machine
end

