-- ==== Sys2Proof/Machine/Dispatcher.lean ====
section
/-!
DEFINITION. The packet dispatcher (spec 41_dispatcher.md section 1) and the meaning of DISPATCH.
-/

namespace Sys2Proof.Machine

/-- `route(m)` (R141). -/
def State.route (m : InFlightMessage) (s : State) : State :=
  if m.mtype = tagI then s.initHandler m
  else if m.mtype = tagT then s.applyOutputs m
  else if m.mtype = tagP then s.pollInputs
  else s

/-- `frames_seen <- frames_seen + 1` (R140). -/
def State.countSeen (s : State) : State :=
  { s with cnt := { s.cnt with framesSeen := s.cnt.framesSeen + 1 } }

/-- `frames_processed <- frames_processed + 1` (R140). -/
def State.countProcessed (s : State) : State :=
  { s with cnt := { s.cnt with framesProcessed := s.cnt.framesProcessed + 1 } }

/-- `dispatch(S.msg)` (R140): count the frame; if it is addressed to this node, count it as processed and route it. -/
def State.dispatch (s : State) : State :=
  if s.msg.dest = nodeAddress s.cfg then s.countSeen.countProcessed.route s.msg else s.countSeen

/-- DISPATCH (R140). -/
def execDispatch (s : State) : Host.Outcome State Fault Refusal := settle s s.dispatch

end Sys2Proof.Machine
end

