-- ==== Sys2Proof/Machine/Parser.lean ====
section
/-!
DEFINITION. The cells of the frame parser (spec 40_frame_parser.md): the meanings of the 25 RX_* rows. Each is one
byte processed from start to finish (R4, R100): the byte is counted and the cell's rule applied. A cell does not test
`S.state`: the decoder selected it by that state (R100; log entry 13).
-/

namespace Sys2Proof.Machine

/-- RX_START_ATTN (R101; 90_conflicts.md C8). -/
def execRxStartAttn (s : State) : Host.Outcome State Fault Refusal :=
  receive (fun t => t.messageReset.goto .attnNext) s

/-- RX_START_STX (R102). -/
def execRxStartStx (s : State) : Host.Outcome State Fault Refusal :=
  receive (State.raiseFramingError .startNotAttn) s

/-- RX_START_ETX (R102). -/
def execRxStartEtx (s : State) : Host.Outcome State Fault Refusal :=
  receive (State.raiseFramingError .startNotAttn) s

/-- RX_START_DLE (R102). -/
def execRxStartDle (s : State) : Host.Outcome State Fault Refusal :=
  receive (State.raiseFramingError .startNotAttn) s

/-- RX_START_OTHER (R102). -/
def execRxStartOther (_b : Byte) (s : State) : Host.Outcome State Fault Refusal :=
  receive (State.raiseFramingError .startNotAttn) s

/-- RX_ATTN_NEXT_ATTN (R103). -/
def execRxAttnNextAttn (s : State) : Host.Outcome State Fault Refusal :=
  receive (State.goto .stxNext) s

/-- RX_ATTN_NEXT_STX (R104). -/
def execRxAttnNextStx (s : State) : Host.Outcome State Fault Refusal :=
  receive (State.raiseFramingError .attnNextNotAttn) s

/-- RX_ATTN_NEXT_ETX (R104). -/
def execRxAttnNextEtx (s : State) : Host.Outcome State Fault Refusal :=
  receive (State.raiseFramingError .attnNextNotAttn) s

/-- RX_ATTN_NEXT_DLE (R104). -/
def execRxAttnNextDle (s : State) : Host.Outcome State Fault Refusal :=
  receive (State.raiseFramingError .attnNextNotAttn) s

/-- RX_ATTN_NEXT_OTHER (R104). -/
def execRxAttnNextOther (_b : Byte) (s : State) : Host.Outcome State Fault Refusal :=
  receive (State.raiseFramingError .attnNextNotAttn) s

/-- RX_STX_NEXT_STX (R105). -/
def execRxStxNextStx (s : State) : Host.Outcome State Fault Refusal :=
  receive (State.goto .addrNext) s

/-- RX_STX_NEXT_ATTN (R106): a third `ATTN` is an error (90_conflicts.md C2). -/
def execRxStxNextAttn (s : State) : Host.Outcome State Fault Refusal :=
  receive (State.raiseFramingError .stxNextNotStx) s

/-- RX_STX_NEXT_ETX (R106). -/
def execRxStxNextEtx (s : State) : Host.Outcome State Fault Refusal :=
  receive (State.raiseFramingError .stxNextNotStx) s

/-- RX_STX_NEXT_DLE (R106). -/
def execRxStxNextDle (s : State) : Host.Outcome State Fault Refusal :=
  receive (State.raiseFramingError .stxNextNotStx) s

/-- RX_STX_NEXT_OTHER (R106). -/
def execRxStxNextOther (_b : Byte) (s : State) : Host.Outcome State Fault Refusal :=
  receive (State.raiseFramingError .stxNextNotStx) s

/-- RX_ADDR_NEXT_ANY (R107): any byte is the destination. -/
def execRxAddrNextAny (b : Byte) (s : State) : Host.Outcome State Fault Refusal :=
  receive (fun t => { t with msg := { t.msg with dest := b } }.goto .typeNext) s

/-- RX_TYPE_NEXT_ANY (R108): any byte is the message type. -/
def execRxTypeNextAny (b : Byte) (s : State) : Host.Outcome State Fault Refusal :=
  receive (fun t => { t with msg := { t.msg with mtype := b } }.goto .maybeDataNext) s

/-- RX_MAYBE_DATA_NEXT_ETX (R109): the frame ends; the handler runs to completion, then `START` (R149). -/
def execRxMaybeDataNextEtx (s : State) : Host.Outcome State Fault Refusal :=
  receive (fun t => t.dispatch.goto .start) s

/-- RX_MAYBE_DATA_NEXT_ATTN (R110): by `ATTN_IN_DATA` the end of the frame, or data. -/
def execRxMaybeDataNextAttn (s : State) : Host.Outcome State Fault Refusal :=
  receive (fun t =>
    match t.cfg.attnInData with
    | .dispatch => t.dispatch.goto .start
    | .append => t.takeData ATTN) s

/-- RX_MAYBE_DATA_NEXT_STX (R111): an unescaped `STX` is data. -/
def execRxMaybeDataNextStx (s : State) : Host.Outcome State Fault Refusal :=
  receive (State.takeData STX) s

/-- RX_MAYBE_DATA_NEXT_OTHER (R112). -/
def execRxMaybeDataNextOther (b : Byte) (s : State) : Host.Outcome State Fault Refusal :=
  receive (State.takeData b) s

/-- RX_MAYBE_DATA_NEXT_DLE (R113): an escape begins; no overflow check here. -/
def execRxMaybeDataNextDle (s : State) : Host.Outcome State Fault Refusal :=
  receive (State.goto .dataNext) s

/-- RX_DATA_NEXT_ANY_LIBERAL (R114): any escaped byte is data. -/
def execRxDataNextAnyLiberal (b : Byte) (s : State) : Host.Outcome State Fault Refusal :=
  receive (State.takeData b) s

/-- RX_DATA_NEXT_CTRL_STRICT (R115): an escaped 02, 03 or 10 is data. -/
def execRxDataNextCtrlStrict (b : Byte) (s : State) : Host.Outcome State Fault Refusal :=
  receive (State.takeData b) s

/-- RX_DATA_NEXT_NONCTRL_STRICT (R115): any other escaped byte is an error, tested before overflow (R225). -/
def execRxDataNextNonctrlStrict (_b : Byte) (s : State) : Host.Outcome State Fault Refusal :=
  receive (State.raiseFramingError .badEscape) s

end Sys2Proof.Machine
end

