-- ==== Sys2Proof/Machine/Service.lean ====
section
/-!
DEFINITION. `feed` (spec R100) and the drain entry point (R201), the meaning of SERVICE.
-/

namespace Sys2Proof.Machine

/-- `feed(b)` (R100): the one cell of the pair of parser state and byte class. -/
def feed (b : Byte) (s : State) : Host.Outcome State Fault Refusal :=
  match s.state, byteClass b with
  | .start, .attn => execRxStartAttn s
  | .start, .stx => execRxStartStx s
  | .start, .etx => execRxStartEtx s
  | .start, .dle => execRxStartDle s
  | .start, .other => execRxStartOther b s
  | .attnNext, .attn => execRxAttnNextAttn s
  | .attnNext, .stx => execRxAttnNextStx s
  | .attnNext, .etx => execRxAttnNextEtx s
  | .attnNext, .dle => execRxAttnNextDle s
  | .attnNext, .other => execRxAttnNextOther b s
  | .stxNext, .stx => execRxStxNextStx s
  | .stxNext, .attn => execRxStxNextAttn s
  | .stxNext, .etx => execRxStxNextEtx s
  | .stxNext, .dle => execRxStxNextDle s
  | .stxNext, .other => execRxStxNextOther b s
  | .addrNext, _ => execRxAddrNextAny b s
  | .typeNext, _ => execRxTypeNextAny b s
  | .maybeDataNext, .etx => execRxMaybeDataNextEtx s
  | .maybeDataNext, .attn => execRxMaybeDataNextAttn s
  | .maybeDataNext, .stx => execRxMaybeDataNextStx s
  | .maybeDataNext, .other => execRxMaybeDataNextOther b s
  | .maybeDataNext, .dle => execRxMaybeDataNextDle s
  | .dataNext, c =>
    match s.cfg.escapePolicy, c with
    | .liberal, _ => execRxDataNextAnyLiberal b s
    | .strict, .stx => execRxDataNextCtrlStrict b s
    | .strict, .etx => execRxDataNextCtrlStrict b s
    | .strict, .dle => execRxDataNextCtrlStrict b s
    | .strict, .attn => execRxDataNextNonctrlStrict b s
    | .strict, .other => execRxDataNextNonctrlStrict b s

/-- A run (R207): feed a sequence of bytes one after another. -/
def feedAll : List Byte → State → Host.Outcome State Fault Refusal
  | [], s => .next s
  | b :: bs, s => andThen (feed b s) (feedAll bs)

/-- The loop of R201: while a byte is available, read it and feed it; stop at the first `none` (D17). `fuel` bounds
the turns; `RX` cannot grow while the loop runs, so its length is enough. -/
def drain : Nat → State → Host.Outcome State Fault Refusal
  | 0, s => .next s
  | fuel + 1, s =>
    if s.bytesAvailable > 0 then
      match s.readByte with
      | (none, t) => .next t
      | (some b, t) => andThen (feed b t) (drain fuel)
    else .next s

/-- The entry of `service()` (R201): one tick (D6); the configuration is frozen from here on (R251). -/
def State.enterService (s : State) : State :=
  { s with cnt := { s.cnt with pollTicks := s.cnt.pollTicks + 1 }, frozen := true }

/-- SERVICE (R201). -/
def execService (s : State) : Host.Outcome State Fault Refusal :=
  drain s.bytesAvailable s.enterService

end Sys2Proof.Machine
end

