-- ==== Sys2Proof/Machine/Dispatch.lean ====
section
/-!
DEFINITION. The meaning of every instruction: one arm per row of spec/opcode_table.json.
-/

namespace Sys2Proof.Machine

def exec (i : Instr) (s : State) : Host.Outcome State Fault Refusal :=
  match i with
  | .rxStartAttn => Sys2Proof.Machine.execRxStartAttn s
  | .rxStartStx => Sys2Proof.Machine.execRxStartStx s
  | .rxStartEtx => Sys2Proof.Machine.execRxStartEtx s
  | .rxStartDle => Sys2Proof.Machine.execRxStartDle s
  | .rxStartOther b => Sys2Proof.Machine.execRxStartOther b s
  | .rxAttnNextAttn => Sys2Proof.Machine.execRxAttnNextAttn s
  | .rxAttnNextStx => Sys2Proof.Machine.execRxAttnNextStx s
  | .rxAttnNextEtx => Sys2Proof.Machine.execRxAttnNextEtx s
  | .rxAttnNextDle => Sys2Proof.Machine.execRxAttnNextDle s
  | .rxAttnNextOther b => Sys2Proof.Machine.execRxAttnNextOther b s
  | .rxStxNextStx => Sys2Proof.Machine.execRxStxNextStx s
  | .rxStxNextAttn => Sys2Proof.Machine.execRxStxNextAttn s
  | .rxStxNextEtx => Sys2Proof.Machine.execRxStxNextEtx s
  | .rxStxNextDle => Sys2Proof.Machine.execRxStxNextDle s
  | .rxStxNextOther b => Sys2Proof.Machine.execRxStxNextOther b s
  | .rxAddrNextAny b => Sys2Proof.Machine.execRxAddrNextAny b s
  | .rxTypeNextAny b => Sys2Proof.Machine.execRxTypeNextAny b s
  | .rxMaybeDataNextEtx => Sys2Proof.Machine.execRxMaybeDataNextEtx s
  | .rxMaybeDataNextAttn => Sys2Proof.Machine.execRxMaybeDataNextAttn s
  | .rxMaybeDataNextStx => Sys2Proof.Machine.execRxMaybeDataNextStx s
  | .rxMaybeDataNextOther b => Sys2Proof.Machine.execRxMaybeDataNextOther b s
  | .rxMaybeDataNextDle => Sys2Proof.Machine.execRxMaybeDataNextDle s
  | .rxDataNextAnyLiberal b => Sys2Proof.Machine.execRxDataNextAnyLiberal b s
  | .rxDataNextCtrlStrict b => Sys2Proof.Machine.execRxDataNextCtrlStrict b s
  | .rxDataNextNonctrlStrict b => Sys2Proof.Machine.execRxDataNextNonctrlStrict b s
  | .msgI => Sys2Proof.Machine.execMsgI s
  | .msgT => Sys2Proof.Machine.execMsgT s
  | .msgP => Sys2Proof.Machine.execMsgP s
  | .msgOther t => Sys2Proof.Machine.execMsgOther t s
  | .msgR => Sys2Proof.Machine.execMsgR s
  | .dispatch => Sys2Proof.Machine.execDispatch s
  | .codecGetbit buf bufferLen bitIndex => Sys2Proof.Machine.execCodecGetbit buf bufferLen bitIndex s
  | .codecSetbit buf bufferLen bitIndex value => Sys2Proof.Machine.execCodecSetbit buf bufferLen bitIndex value s
  | .codecPack bank n len => Sys2Proof.Machine.execCodecPack bank n len s
  | .codecUnpack buf len n => Sys2Proof.Machine.execCodecUnpack buf len n s
  | .encode t payload => Sys2Proof.Machine.execEncode t payload s
  | .service => Sys2Proof.Machine.execService s

end Sys2Proof.Machine
end

