-- ==== Sys2Proof/Machine/Environment.lean ====
section
/-!
DEFINITION. The environment's moves between steps: construction, registration and hardware reset (spec R250 to R254),
bytes arriving in `RX` (R206), and the configuration check of R152.
-/

namespace Sys2Proof.Machine

/-- Construction (R250): refused for a `LOCAL_ID` outside 0..127 (R8) and for `MAX_MSG_LEN = 0` (R10). -/
def construct (localId maxMsgLen : Nat) (escape : EscapePolicy) (attn : AttnInData) (rLen : RLenPolicy) :
    Host.Outcome State Fault Refusal :=
  if h : localId < 128 then
    if maxMsgLen = 0 then .refused .illegalMaxMsgLen
    else
      .next (State.constructed
        { localId := ⟨localId, h⟩, maxMsgLen := maxMsgLen, escapePolicy := escape, attnInData := attn,
          rLenPolicy := rLen, inputCount := none, outputCount := none, initPresent := false })
  else .refused (.illegalLocalId localId)

/-- Each registration happens at most once and before the first `service()` (R251). -/
def register (already : Bool) (effect : State → State) (s : State) : Host.Outcome State Fault Refusal :=
  if already then .refused .registeredTwice
  else if s.frozen then .refused .registeredLate
  else .next (effect s)

/-- The init registration (R251). -/
def registerInit (s : State) : Host.Outcome State Fault Refusal :=
  register s.cfg.initPresent (fun t => { t with cfg := { t.cfg with initPresent := true } }) s

/-- The input registration (R251): a bank of `n` elements, all `false` (R32). -/
def registerInput (n : Nat) (s : State) : Host.Outcome State Fault Refusal :=
  register s.cfg.inputCount.isSome
    (fun t => { t with cfg := { t.cfg with inputCount := some n }, ibank := some (List.replicate n false) }) s

/-- The output registration (R251). -/
def registerOutput (n : Nat) (s : State) : Host.Outcome State Fault Refusal :=
  register s.cfg.outputCount.isSome
    (fun t => { t with cfg := { t.cfg with outputCount := some n }, obank := some (List.replicate n false) }) s

/-- A hardware reset (R252): `S` as after construction and registration, the configuration kept. The environment's
side is not the block's and stays. -/
def hardwareReset (s : State) : State :=
  { s with
    state := .start
    msg := .cleared
    ibank := s.cfg.inputCount.map fun n => List.replicate n false
    obank := s.cfg.outputCount.map fun n => List.replicate n false
    cnt := .zero }

/-- The effect of a move of the environment. -/
def hostCall (c : HostCall) (s : State) : Host.Outcome State Fault Refusal :=
  match c with
  | .service => execService s
  | .arrive items => .next { s with rx := s.rx ++ items }
  | .registerInit => registerInit s
  | .registerInput n => registerInput n s
  | .registerOutput n => registerOutput n s
  | .hardwareReset => .next (hardwareReset s)

/-- The check `poll_capacity_ok` (R152): advice to an integrator; nothing depends on it. -/
def pollCapacityOk (c : Config) : Bool :=
  match c.inputCount with
  | none => true
  | some n => decide (rlen c.rLenPolicy n < c.maxMsgLen)

end Sys2Proof.Machine
end

