-- ==== Sys2Proof/Machine/Fetch.lean ====
section
/-!
DEFINITION. Where a step finds its instruction: the oldest byte of `RX`, decoded in the parser state and under the
escape policy that stand (spec R100, R203), and how a word of the opcode table is put there.
-/

namespace Sys2Proof.Machine

/-- The next received byte, decoded, and the state with that byte removed from `RX` (R58); `none` if no byte can be
read. -/
def fetch (s : State) : Option (Instr × State) :=
  match s.readByte with
  | (none, _) => none
  | (some b, t) =>
    match decode (.rx s.state s.cfg.escapePolicy) [b] with
    | .instr i _ => some (i, t)
    | .rejected _ => none

/-- The record of an empty frame of type `t` addressed to this node. -/
def frameOfType (c : Config) (t : Byte) : InFlightMessage :=
  { dest := nodeAddress c, mtype := t, payload := [], length := 0 }

/-- The frame is complete but for its `ETX`, which is the next byte. -/
def State.aboutToDispatch (t : Byte) (s : State) : State :=
  { s with state := .maybeDataNext, msg := frameOfType s.cfg t, rx := some ETX :: s.rx }

/-- An input bank, if there is none: an empty one, registered (R251). -/
def State.withInputBank (s : State) : State :=
  match s.ibank with
  | some _ => s
  | none => { s with ibank := some [], cfg := { s.cfg with inputCount := some 0 } }

/-- Put a word of the opcode table where the next step runs it (log entry 11), at the place `tableSite` reads it: a
received byte at the head of `RX` with the parser in that state; a message type in a frame addressed to this node that
ends at the next byte; the transmitted type `'R'` by a poll that the node answers. -/
def placeWord (nbits w : Nat) (s : State) : State :=
  match layoutWord nbits w with
  | [] => s
  | b :: rest =>
    match tableSite b with
    | .rx st _ => { s with pending := [], state := st, rx := (b :: rest).map some ++ s.rx }
    | .msgType => { s with pending := [] }.aboutToDispatch b
    | .txType => ({ s with pending := [] }.aboutToDispatch tagP).withInputBank

end Sys2Proof.Machine
end

