-- ==== Sys2Proof/Machine/Step.lean ====
section
/-!
DEFINITION. One step of the machine. The unit of the spec is one received byte processed from start to finish
(spec R4, R203); the environment's other moves come between such steps (R206).
-/

namespace Sys2Proof.Machine

/-- One step: the environment's next planned move; else the next received byte, decoded and run; else, with no byte to
read, the one thing the environment can always do, a call of `service()` (R206; log entry 6). -/
def step (s : State) : Host.Outcome State Fault Refusal :=
  match s.pending with
  | c :: rest => hostCall c { s with pending := rest }
  | [] =>
    match fetch s with
    | some (i, t) => exec i t
    | none => exec .service s

/-- `s` with the instruction of a table word placed where `step` runs it next. -/
def State.withFetchWord (s : State) (nbits w : Nat) : State := placeWord nbits w s

end Sys2Proof.Machine
end

