-- ==== Sys2Proof/Machine/Flags.lean ====
section
/-!
DEFINITION. The block has no flags: no rule sets or reads one (spec, 40_frame_parser.md). What it shows instead of a
status register is the read-only register view of R22 and R29: the parser state's code, the numbered configuration
fields C0 to C8 and the numbered counters 0 to 4. The numbers and codes are the spec's decisions D18 and D24.
-/

namespace Sys2Proof.Machine

/-- The 3-bit code of a parser state (R22). -/
def parserStateCode : ParserState → BitVec 3
  | .start => 0
  | .attnNext => 1
  | .stxNext => 2
  | .addrNext => 3
  | .typeNext => 4
  | .maybeDataNext => 5
  | .dataNext => 6

/-- The parser state of a code; code 7 is none (R22). -/
def parserStateOfCode (c : BitVec 3) : Option ParserState :=
  match c.toNat with
  | 0 => some .start
  | 1 => some .attnNext
  | 2 => some .stxNext
  | 3 => some .addrNext
  | 4 => some .typeNext
  | 5 => some .maybeDataNext
  | 6 => some .dataNext
  | _ => none

/-- `LIBERAL` = 0, `STRICT` = 1 (R29). -/
def escapePolicyCode : EscapePolicy → BitVec 1
  | .liberal => 0
  | .strict => 1

/-- `DISPATCH` = 0, `APPEND` = 1 (R29). -/
def attnInDataCode : AttnInData → BitVec 1
  | .dispatch => 0
  | .append => 1

/-- `PLUS_ONE` = 0, `CEIL` = 1 (R29). -/
def rLenPolicyCode : RLenPolicy → BitVec 1
  | .plusOne => 0
  | .ceil => 1

/-- What a configuration field reads as: a number, or a bank's optional line count. -/
inductive ConfigValue where
  | number (n : Nat)
  | count (n : Option Nat)
deriving DecidableEq, Repr

/-- The configuration view (R29), by field number; there are nine fields. -/
def configView (c : Config) (field : Nat) : Option ConfigValue :=
  match field with
  | 0 => some (.number c.localId.val)
  | 1 => some (.number (nodeAddress c).toNat)
  | 2 => some (.number c.maxMsgLen)
  | 3 => some (.number (escapePolicyCode c.escapePolicy).toNat)
  | 4 => some (.number (attnInDataCode c.attnInData).toNat)
  | 5 => some (.number (rLenPolicyCode c.rLenPolicy).toNat)
  | 6 => some (.count c.inputCount)
  | 7 => some (.count c.outputCount)
  | 8 => some (.number c.initPresent.toNat)
  | _ => none

/-- The status view (R28, R29): the counters by number; there are five. -/
def counterView (c : Counters) (number : Nat) : Option Nat :=
  match number with
  | 0 => some c.bytesSeen
  | 1 => some c.framesSeen
  | 2 => some c.framesProcessed
  | 3 => some c.parserErrors
  | 4 => some c.pollTicks
  | _ => none

end Sys2Proof.Machine
end

