-- ==== Sys2Proof/Safety.lean ====
section
/-!
DEFINITION. The terms claims are stated in: the invariant of the machine, the parser as the one function of spec R119,
and closed forms of what the handlers' loops do.
-/

namespace Sys2Proof.Machine

/-- The message record before its header is complete holds what the message reset left there (R24, R101, R107, R108):
nothing before the destination byte, the destination alone before the type byte. -/
def headerClean (p : ParserState) (m : InFlightMessage) : Bool :=
  match p with
  | .attnNext => m == .cleared
  | .stxNext => m == .cleared
  | .addrNext => m == .cleared
  | .typeNext => m == { InFlightMessage.cleared with dest := m.dest }
  | .start => true
  | .maybeDataNext => true
  | .dataNext => true

/-- What holds of every state the machine can be in. -/
structure State.Inv (s : State) : Prop where
  /-- `MAX_MSG_LEN` is at least 1 (R10) -/
  maxPositive : 1 ≤ s.cfg.maxMsgLen
  /-- the payload storage is in its canonical form (R23) -/
  payloadWf : s.msg.wf s.cfg.maxMsgLen = true
  /-- the input bank is present iff it is configured, with that many lines (R27) -/
  inputBank : s.ibank.map List.length = s.cfg.inputCount
  /-- the output bank is present iff it is configured, with that many lines (R27) -/
  outputBank : s.obank.map List.length = s.cfg.outputCount
  /-- an incomplete header is clean (R24) -/
  header : headerClean s.state s.msg = true
  /-- a byte ends at most one frame or takes at most one error (R100, R225) -/
  counted : s.cnt.framesSeen + s.cnt.parserErrors ≤ s.cnt.bytesSeen
  /-- a processed frame was seen (R140) -/
  processed : s.cnt.framesProcessed ≤ s.cnt.framesSeen
  /-- nothing has been counted before the configuration is frozen (R251) -/
  fresh : s.frozen = false → s.cnt = Counters.zero

/-- The parser as the one function of R119, the byte counted and the step ended as in R100. -/
def wholeFeed (b : Byte) (s : State) : Host.Outcome State Fault Refusal :=
  let t := s.countByte
  settle s <|
    match s.state with
    | .start => if b = 0xFF then t.messageReset.goto .attnNext else t.raiseFramingError .startNotAttn
    | .attnNext => if b = 0xFF then t.goto .stxNext else t.raiseFramingError .attnNextNotAttn
    | .stxNext => if b = 0x02 then t.goto .addrNext else t.raiseFramingError .stxNextNotStx
    | .addrNext => { t with msg := { t.msg with dest := b }, state := .typeNext }
    | .typeNext => { t with msg := { t.msg with mtype := b }, state := .maybeDataNext }
    | .maybeDataNext =>
      if b = 0x03 ∨ (b = 0xFF ∧ s.cfg.attnInData = .dispatch) then t.dispatch.goto .start
      else if b = 0x10 then t.goto .dataNext
      else
        match t.append b with
        | some u => u.goto .maybeDataNext
        | none => t.raiseFramingError .overflow
    | .dataNext =>
      if s.cfg.escapePolicy = .strict ∧ ¬(b = 0x02 ∨ b = 0x03 ∨ b = 0x10) then t.raiseFramingError .badEscape
      else
        match t.append b with
        | some u => u.goto .maybeDataNext
        | none => t.raiseFramingError .overflow

/-- The answer the environment gives to the `i`-th query from now on (R203). -/
def Answers.line (a : Answers) (i : Nat) : Bool :=
  a.lines.getD i (Config.freeInputLine (a.draws + (i - a.lines.length)))

/-- The answers that are left after `n` queries. -/
def Answers.afterQueries (a : Answers) (n : Nat) : Answers :=
  { a with lines := a.lines.drop n, draws := a.draws + (n - a.lines.length) }

/-- The lines a poll of `n` lines samples (R144). -/
def Answers.sampled (a : Answers) (n : Nat) : List Bool := (List.range n).map a.line

/-- The events of a poll's queries (R144, R203). -/
def queryEvents (a : Answers) (n : Nat) : List Event :=
  (List.range n).map fun i => .inputQuery i (a.line i)

/-- The per-line events of a `'T'` (R143): one for each line that differs, in ascending order. -/
def changeEvents (m : InFlightMessage) (bank : List Bool) : List Event :=
  (List.range bank.length).filterMap fun i =>
    if getBit m.payload m.length i = bitRead bank i then none
    else some (.outputLine i (getBit m.payload m.length i))

/-- All the events of a `'T'` (R143): the changes, then the whole bank once if there was one. -/
def applyEvents (m : InFlightMessage) (bank : List Bool) : List Event :=
  if changeEvents m bank = [] then []
  else changeEvents m bank ++ [.outputBulk bank.length (unpack m.payload m.length bank.length)]

/-- A byte the encoder escapes (R186). -/
def isEscaped (x : Byte) : Bool := x == 0x02 || x == 0x03 || x == 0x10

/-- How a host escapes a payload byte for a receiver at the defaults (R120, R266): FF too. -/
def hostEsc (x : Byte) : List Byte := if x = 0xFF ∨ isEscaped x = true then [0x10, x] else [x]

/-- Whether the byte at a position of an escaped payload is an escape `DLE` (R189): a 10 that does not itself directly
follow an escape `DLE`. -/
def escapeDleAt (l : List Byte) : Nat → Bool
  | 0 => l[0]? == some 0x10
  | k + 1 => l[k + 1]? == some 0x10 && !escapeDleAt l k

/-- A payload on the wire as a sender writes it: each byte with whether a `DLE` is written before it (R120). -/
def wirePayload (w : List (Byte × Bool)) : List Byte :=
  w.flatMap fun x => if x.2 then [0x10, x.1] else [x.1]

/-- A receiver takes `x` for data when it is written so: escaped, under `STRICT` only 02, 03 and 10 (R114, R115);
unescaped, every byte but 03 and 10, and FF only under `APPEND` (R110 to R112). -/
abbrev takenAsData (c : Config) (x : Byte) (escaped : Bool) : Prop :=
  if escaped then c.escapePolicy = .liberal ∨ isEscaped x = true
  else x ≠ 0x03 ∧ x ≠ 0x10 ∧ (x ≠ 0xFF ∨ c.attnInData = .append)

end Sys2Proof.Machine
end

