-- ==== Sys2Proof/Certificates/Slice0/Obligations.lean ====
section
/-!
DEFINITION. What the provers are asked to prove. Each statement says in its docstring which rule of the spec it
formalises. Most statements about an instruction are equations `exec i s = .next t` with `t` written as an update of
`s`: the update is the result, and every field it does not name is the frame. `s.breach = none` says that the
environment keeps its duties of R206 (every call the block makes returns, none re-enters).
-/

open Sys2Proof Sys2Proof.Machine

/-! ## Encoding -/

/-- R72: the five byte classes are told apart by the byte's value alone, and cover all of them. -/
def Obligations.ByteClassesPartition : Prop :=
  ∀ b : Byte,
    (byteClass b = .attn ↔ b = 0xFF) ∧ (byteClass b = .stx ↔ b = 0x02) ∧ (byteClass b = .dle ↔ b = 0x10) ∧
    (byteClass b = .etx ↔ b = 0x03) ∧
    (byteClass b = .other ↔ b ≠ 0xFF ∧ b ≠ 0x02 ∧ b ≠ 0x10 ∧ b ≠ 0x03)

/-- 30_encoding.md sections 4 and 6, the opcode table: words written out from the table decode to their rows. -/
def Obligations.RowWordsDecode : Prop :=
  decode (.rx .start .liberal) [0b11111111] = .instr .rxStartAttn [] ∧
  decode (.rx .attnNext .liberal) [0b00000010] = .instr .rxAttnNextStx [] ∧
  decode (.rx .stxNext .strict) [0b00000010] = .instr .rxStxNextStx [] ∧
  decode (.rx .addrNext .liberal) [0b00010000] = .instr (.rxAddrNextAny 0x10) [] ∧
  decode (.rx .maybeDataNext .liberal) [0b00000011, 0x55] = .instr .rxMaybeDataNextEtx [0x55] ∧
  decode (.rx .dataNext .strict) [0b11111111] = .instr (.rxDataNextNonctrlStrict 0xFF) [] ∧
  decode .msgType [0b01010100] = .instr .msgT [] ∧
  decode .msgType [0b01010010] = .instr (.msgOther 0x52) [] ∧
  decode .txType [0b01010010] = .instr .msgR [] ∧
  decode .txType [0b01010100] = .rejected (.notTransmitted 0x54)

/-- Decoding the encoding of a well-formed instruction gives it back, with the bytes after it, for every row that has
an encoding (R70, R72, R80, R82; the sites are the table's formats). -/
def Obligations.EncodedInstrDecodes : Prop :=
  ∀ (i : Instr) (site : Site) (ws rest : List Byte),
    i.wf = true → encode i = some (site, ws) → decode site (ws ++ rest) = .instr i rest

/-- The other direction: what a byte decodes to is well-formed, consumes that byte alone (R70), and encodes to that
byte at the same site (a cell whose row names no escape policy has one encoding for both). Only an empty input and a
transmitted type other than `'R'` (R148) are rejected. -/
def Obligations.DecodedByteEncodes : Prop :=
  ∀ (site : Site) (b : Byte) (rest : List Byte),
    (∀ (i : Instr) (rest' : List Byte), decode site (b :: rest) = .instr i rest' →
      rest' = rest ∧ i.wf = true ∧ ∃ site', encode i = some (site', [b]) ∧
        (site' = site ∨ ∃ st policy, st ≠ .dataNext ∧ site = .rx st policy ∧ site' = .rx st .liberal)) ∧
    (∀ e : DecodeError, decode site (b :: rest) = .rejected e ↔ site = .txType ∧ b ≠ 0x52 ∧ e = .notTransmitted b) ∧
    decode site [] = .rejected .noByte

/-! ## The step -/

/-- When no move of the environment is pending and `RX` holds a byte that decodes to `i` in the parser state and under
the policy that stand, a step removes that byte and runs `i` (R100, R203). That a pending move goes first is the model's
choice (log entry 2). -/
def Obligations.StepRunsDecodedByte : Prop :=
  ∀ (s : State) (b : Byte) (rest : List (Option Byte)) (i : Instr),
    s.pending = [] → s.rx = some b :: rest → decode (.rx s.state s.cfg.escapePolicy) [b] = .instr i [] →
    step s = exec i { s with rx := rest }

/-- The other steps: a pending move of the environment is made first; with no byte to read the environment calls
`service()`. The order is the model's own (log entries 2 and 6). -/
def Obligations.StepWithoutByte : Prop :=
  ∀ s : State,
    (∀ (c : HostCall) (rest : List HostCall), s.pending = c :: rest → step s = hostCall c { s with pending := rest }) ∧
    (s.pending = [] → (s.rx = [] ∨ ∃ rest, s.rx = none :: rest) → step s = exec .service s) ∧
    hostCall .service s = exec .service s

/-- R119: the cells R101 to R115, each selected by the decoder, are together the one function of R119, and `feed`, the
function SERVICE calls, is the same. The spec's decisions in it are D3, D4, D6, D16 and D39; that counting a byte also
freezes the configuration is the model's (its field `frozen`, log entry 7). -/
def Obligations.CellsAreWholeFunction : Prop :=
  ∀ (b : Byte) (s : State),
    exec (decodeRx s.cfg.escapePolicy s.state b) s = wholeFeed b s ∧ feed b s = wholeFeed b s

/-! ## The parser's cells, with their frames -/

/-- R101: the cell RX_START_ATTN. The record is cleared to 0x00 bytes (R24, the spec's decision D16), the byte is
counted (R100, R33, the spec's decision D6), and the configuration is frozen (the model's field, log entry 7); nothing
else changes. That a bare cell has this effect in every parser state, not only in the one that selects it, is the
model's choice (log entry 13). -/
def Obligations.StartAttnBeginsFrame : Prop :=
  ∀ s : State,
    exec .rxStartAttn s = .next
      { s with
        state := .attnNext
        msg := { dest := 0x00, mtype := 0x00, payload := [], length := 0 }
        cnt := { s.cnt with bytesSeen := s.cnt.bytesSeen + 1 }
        frozen := true }

/-- R102, R104, R106 and the error half of R115: each of the 13 error cells takes the error transition (R220) and does
nothing else. That the byte is consumed is the spec's decision D3, that it is counted D6 and 0x00 in the header D16;
`frozen` is the model's field (log entry 7), and the effect of a bare cell in a parser state that does not select it the
model's choice (log entry 13). -/
def Obligations.ErrorCellsResetParser : Prop :=
  ∀ (s : State) (b : Byte),
    let t : State :=
      { s with
        state := .start
        msg := { dest := 0x00, mtype := 0x00, payload := [], length := 0 }
        cnt := { s.cnt with bytesSeen := s.cnt.bytesSeen + 1, parserErrors := s.cnt.parserErrors + 1 }
        frozen := true }
    exec .rxStartStx s = .next t ∧ exec .rxStartEtx s = .next t ∧ exec .rxStartDle s = .next t ∧
    exec (.rxStartOther b) s = .next t ∧
    exec .rxAttnNextStx s = .next t ∧ exec .rxAttnNextEtx s = .next t ∧ exec .rxAttnNextDle s = .next t ∧
    exec (.rxAttnNextOther b) s = .next t ∧
    exec .rxStxNextAttn s = .next t ∧ exec .rxStxNextEtx s = .next t ∧ exec .rxStxNextDle s = .next t ∧
    exec (.rxStxNextOther b) s = .next t ∧
    exec (.rxDataNextNonctrlStrict b) s = .next t

/-- R103, R105, R113: the cells that only move the parser on. That the byte is counted is the spec's decision D6,
`frozen` the model's field (log entry 7), and the effect of a bare cell in a parser state that does not select it the
model's choice (log entry 13). -/
def Obligations.PreambleAndEscapeCellsAdvance : Prop :=
  ∀ s : State,
    let moved (p : ParserState) : State :=
      { s with state := p, cnt := { s.cnt with bytesSeen := s.cnt.bytesSeen + 1 }, frozen := true }
    exec .rxAttnNextAttn s = .next (moved .stxNext) ∧
    exec .rxStxNextStx s = .next (moved .addrNext) ∧
    exec .rxMaybeDataNextDle s = .next (moved .dataNext)

/-- R107, R108: any byte is stored as the destination, then as the message type. That the byte is counted is the spec's
decision D6, `frozen` the model's field (log entry 7), and the effect of a bare cell in a parser state that does not
select it the model's choice (log entry 13). -/
def Obligations.HeaderCellsStore : Prop :=
  ∀ (s : State) (b : Byte),
    exec (.rxAddrNextAny b) s = .next
      { s with
        state := .typeNext
        msg := { s.msg with dest := b }
        cnt := { s.cnt with bytesSeen := s.cnt.bytesSeen + 1 }
        frozen := true } ∧
    exec (.rxTypeNextAny b) s = .next
      { s with
        state := .maybeDataNext
        msg := { s.msg with mtype := b }
        cnt := { s.cnt with bytesSeen := s.cnt.bytesSeen + 1 }
        frozen := true }

/-- R25, R110 under `APPEND` (the spec's decision D4), R111, R112, R114, R115: with room in the payload every data cell
stores its byte at the end of the payload and expects more; no byte stored before changes. That the byte is counted is
the spec's decision D6, `frozen` the model's field (log entry 7), and the effect of a bare cell in a parser state, or
under an escape policy, that does not select it the model's choice (log entry 13). -/
def Obligations.DataCellsAppend : Prop :=
  ∀ (s : State) (b : Byte), s.msg.length < s.cfg.maxMsgLen →
    let stored (x : Byte) : State :=
      { s with
        state := .maybeDataNext
        msg := { s.msg with payload := s.msg.payload ++ [x], length := s.msg.length + 1 }
        cnt := { s.cnt with bytesSeen := s.cnt.bytesSeen + 1 }
        frozen := true }
    exec .rxMaybeDataNextStx s = .next (stored 0x02) ∧
    exec (.rxMaybeDataNextOther b) s = .next (stored b) ∧
    exec (.rxDataNextAnyLiberal b) s = .next (stored b) ∧
    exec (.rxDataNextCtrlStrict b) s = .next (stored b) ∧
    (s.cfg.attnInData = .append → exec .rxMaybeDataNextAttn s = .next (stored 0xFF))

/-- R222: an overflow, a data cell with a full payload, does exactly what a framing error does in the same state (for
that, see `ErrorCellsResetParser`); that FF may be data is the spec's decision D4. No parser state selects both cells of
an equation, and that a bare cell has its effect in a state that does not select it is the model's choice (log entry
13). -/
def Obligations.OverflowIsFramingError : Prop :=
  ∀ (s : State) (b c : Byte), s.cfg.maxMsgLen ≤ s.msg.length →
    exec .rxMaybeDataNextStx s = exec (.rxStartOther c) s ∧
    exec (.rxMaybeDataNextOther b) s = exec (.rxStartOther c) s ∧
    exec (.rxDataNextAnyLiberal b) s = exec (.rxStartOther c) s ∧
    exec (.rxDataNextCtrlStrict b) s = exec (.rxStartOther c) s ∧
    (s.cfg.attnInData = .append → exec .rxMaybeDataNextAttn s = exec (.rxStartOther c) s)

/-- R109, R110 under `DISPATCH` (the spec's decision D4), R149 (D28): a frame-ending cell counts its byte, runs DISPATCH
on the message to completion and then puts the parser in `START`; it stops exactly where that DISPATCH stops. That the
byte is counted is the spec's decision D6, `frozen` the model's field (log entry 7), and the effect of a bare cell in a
parser state that does not select it the model's choice (log entry 13). -/
def Obligations.FrameEndCellsDispatch : Prop :=
  ∀ s : State,
    let counted : State := { s with cnt := { s.cnt with bytesSeen := s.cnt.bytesSeen + 1 }, frozen := true }
    exec .rxMaybeDataNextEtx s = andThen (exec .dispatch counted) (fun t => .next { t with state := .start }) ∧
    (s.cfg.attnInData = .dispatch →
      exec .rxMaybeDataNextAttn s = andThen (exec .dispatch counted) (fun t => .next { t with state := .start })) ∧
    (s.breach = none → ∃ t, exec .dispatch counted = .next t)

/-! ## The parser, by state and byte -/

/-- R102, R104, R106, R220: in the preamble states a byte that is not the expected one is an error: one more parser
error, the parser in `START`, the partial message gone, nothing emitted, nothing dispatched. That the byte is consumed
by the error and not examined again in `START` is the spec's decision D3 (log entry 17). -/
def Obligations.OutOfPlaceBytesAreErrors : Prop :=
  ∀ (s : State) (b : Byte),
    (s.state = .start ∧ b ≠ 0xFF) ∨ (s.state = .attnNext ∧ b ≠ 0xFF) ∨ (s.state = .stxNext ∧ b ≠ 0x02) →
    ∃ t, feed b s = .next t ∧ t.cnt.parserErrors = s.cnt.parserErrors + 1 ∧ t.state = .start ∧
      t.msg.payload = [] ∧ t.msg.length = 0 ∧ t.events = s.events ∧ t.cnt.framesSeen = s.cnt.framesSeen ∧
      t.cnt.framesProcessed = s.cnt.framesProcessed

/-- R103, R105, R107, R108, R113: the expected bytes of the preamble, any header byte, and a `DLE` in the payload move
the parser on, with no error, and store what the rule says. -/
def Obligations.ExpectedBytesAdvance : Prop :=
  ∀ (s : State) (b : Byte),
    (s.state = .attnNext ∧ b = 0xFF) ∨ (s.state = .stxNext ∧ b = 0x02) ∨ s.state = .addrNext ∨
      s.state = .typeNext ∨ (s.state = .maybeDataNext ∧ b = 0x10) →
    ∃ t, feed b s = .next t ∧ t.events = s.events ∧ t.cnt.parserErrors = s.cnt.parserErrors ∧
      t.cnt.framesSeen = s.cnt.framesSeen ∧ t.cnt.framesProcessed = s.cnt.framesProcessed ∧
      (s.state = .attnNext → t.state = .stxNext ∧ t.msg = s.msg) ∧
      (s.state = .stxNext → t.state = .addrNext ∧ t.msg = s.msg) ∧
      (s.state = .addrNext → t.state = .typeNext ∧ t.msg = { s.msg with dest := b }) ∧
      (s.state = .typeNext → t.state = .maybeDataNext ∧ t.msg = { s.msg with mtype := b }) ∧
      (s.state = .maybeDataNext → t.state = .dataNext ∧ t.msg = s.msg)

/-- R111, R112, R114: a data byte (an unescaped `STX` or other byte; under `LIBERAL` any byte after a `DLE`) is appended
verbatim while there is room, and is an overflow error when there is none (R220; that the byte is consumed by the error
is the spec's decision D3, log entry 17). -/
def Obligations.DataBytesStored : Prop :=
  ∀ (s : State) (b : Byte),
    (s.state = .maybeDataNext ∧ b ≠ 0xFF ∧ b ≠ 0x03 ∧ b ≠ 0x10) ∨
      (s.state = .dataNext ∧ s.cfg.escapePolicy = .liberal) →
    ∃ t, feed b s = .next t ∧ t.events = s.events ∧ t.cnt.framesSeen = s.cnt.framesSeen ∧
      if s.msg.length < s.cfg.maxMsgLen then
        t.state = .maybeDataNext ∧
          t.msg = { s.msg with payload := s.msg.payload ++ [b], length := s.msg.length + 1 } ∧
          t.cnt.parserErrors = s.cnt.parserErrors
      else
        t.state = .start ∧ t.msg.payload = [] ∧ t.msg.length = 0 ∧
          t.cnt.parserErrors = s.cnt.parserErrors + 1

/-- R109: an unescaped `ETX` in the payload ends the frame: DISPATCH runs on it (R140) and the parser is then in
`START`; exactly one frame more is seen, it is processed if it is addressed to this node, no error is taken, and the
record is not cleared. `countByte`, before DISPATCH, counts the byte (R100, R33: the spec's decision D6) and sets
`frozen` (the model's field, log entry 7). That a frame of an unknown type is processed too is the spec's decision D7,
and that the handler runs before `START` is set its decision D28 (log entry 17). -/
def Obligations.EtxEndsFrame : Prop :=
  ∀ s : State, s.breach = none → s.state = .maybeDataNext →
    ∃ t u, feed 0x03 s = .next t ∧ exec .dispatch s.countByte = .next u ∧ t = { u with state := .start } ∧
      t.msg = s.msg ∧
      t.cnt.framesSeen = s.cnt.framesSeen + 1 ∧
      t.cnt.framesProcessed = s.cnt.framesProcessed + (if s.msg.dest = nodeAddress s.cfg then 1 else 0) ∧
      t.cnt.parserErrors = s.cnt.parserErrors

/-- R224, R225, R227: a byte takes at most one error, and a byte that takes one has no other effect than the error
transition: no event, no dispatch, no bank, no answer touched. That the byte is consumed is the spec's decision D3, that
it is counted D6 and 0x00 in the header D16; `frozen` is the model's field (log entry 7). -/
def Obligations.ErrorsArePrecise : Prop :=
  ∀ (b : Byte) (s t : State), feed b s = .next t → t.cnt.parserErrors ≠ s.cnt.parserErrors →
    t = { s with
          state := .start
          msg := { dest := 0x00, mtype := 0x00, payload := [], length := 0 }
          cnt := { s.cnt with bytesSeen := s.cnt.bytesSeen + 1, parserErrors := s.cnt.parserErrors + 1 }
          frozen := true }

/-- R226: a byte that takes an error leaves the parser in `START` (that it is consumed by the error and not examined
again there is the spec's decision D3, log entry 17), and from `START` only the `ATTN` of a next preamble leaves
`START`. -/
def Obligations.RecoveryIsNextPreamble : Prop :=
  ∀ (b : Byte) (s : State),
    (∀ t, feed b s = .next t → t.cnt.parserErrors ≠ s.cnt.parserErrors → t.state = .start) ∧
    (s.state = .start → ∃ t, feed b s = .next t ∧ (t.state ≠ .start ↔ b = 0xFF) ∧ (b = 0xFF → t.state = .attnNext))

/-! ## The handlers -/

/-- R142, R151: MSG_I passes out the first `length` payload bytes and the length if a callback is registered, and does
nothing else; the environment's answer is used up and ignored. That nothing happens without a callback is the spec's
decision D9, that the answer is ignored its D19; the list `inits` that holds the answers is the model's (log entry 4). -/
def Obligations.InitHandlerPassesPayload : Prop :=
  ∀ s : State, s.breach = none →
    (s.cfg.initPresent = true →
      exec .msgI s = .next
        { s with
          answers := { s.answers with inits := s.answers.inits.tail }
          events := s.events ++ [.initCall (s.msg.payload.take s.msg.length) s.msg.length] }) ∧
    (s.cfg.initPresent = false → exec .msgI s = .next s)

/-- R151 (the spec's decision D19): whatever the environment answers to init calls, every instruction does the same: the
answers to come are the only thing that differs afterwards. The list `inits` is the model's (log entry 4), and that a
bare cell runs in a parser state that does not select it is the model's choice (log entry 13). -/
def Obligations.InitAnswersInert : Prop :=
  ∀ (i : Instr) (s t : State) (replies : List Bool), exec i s = .next t →
    ∃ left, exec i { s with answers := { s.answers with inits := replies } } =
      .next { t with answers := { t.answers with inits := left } }

/-- R143: MSG_T makes the output bank the payload's bits (`false` where the payload has none), reports each line that
changed in ascending order (the spec's decision D10) and then, if there was one, the whole bank once; nothing else
changes. Without an output bank it does nothing (D9). -/
def Obligations.ApplyOutputsResult : Prop :=
  ∀ s : State, s.breach = none →
    (∀ bank, s.obank = some bank →
      exec .msgT s = .next
        { s with
          obank := some ((List.range bank.length).map fun i => getBit s.msg.payload s.msg.length i)
          events := s.events ++ applyEvents s.msg bank }) ∧
    (s.obank = none → exec .msgT s = .next s)

/-- R150: a `'T'` whose payload has just been applied changes nothing and reports nothing, whatever the environment. -/
def Obligations.ApplyOutputsIdempotent : Prop :=
  ∀ s t : State, exec .msgT s = .next t → exec .msgT t = .next t

/-- R144, R145, R152: MSG_P queries every input line in ascending order, stores every answer, and then, if the response
is shorter than `MAX_MSG_LEN`, transmits the packed bank in an `'R'` frame; else nothing more. Without an input bank it
does nothing. The spec's decisions in it are D10, D11, D12, D13 and D32. The answers are the environment's list and,
where it is empty, the free value (log entry 4): the statement holds for every one. -/
def Obligations.PollSamplesAndResponds : Prop :=
  ∀ s : State, s.breach = none →
    (∀ bank, s.ibank = some bank →
      exec .msgP s = .next
        { s with
          ibank := some ((List.range bank.length).map s.answers.line)
          answers := s.answers.afterQueries bank.length
          events := s.events ++ queryEvents s.answers bank.length ++
            if rlen s.cfg.rLenPolicy bank.length < s.cfg.maxMsgLen then
              (frameBytes (nodeAddress s.cfg) 0x52
                (pack ((List.range bank.length).map s.answers.line) bank.length
                  (rlen s.cfg.rLenPolicy bank.length))).map Event.txByte
            else [] }) ∧
    (s.ibank = none → exec .msgP s = .next s)

/-- R153: if the poll responds, the bytes transmitted are one frame of type `'R'` from this node whose payload has
`rlen(n_in)` bytes (the spec's decision D13), holds each sampled line at its bit, and is 0 at and above `n_in` (D12).
The answers are the environment's list and, where it is empty, the free value (log entry 4). -/
def Obligations.PollResponseContent : Prop :=
  ∀ (s : State) (bank : List Bool), s.breach = none → s.ibank = some bank →
    rlen s.cfg.rLenPolicy bank.length < s.cfg.maxMsgLen →
    ∃ t buf, exec .msgP s = .next t ∧
      t.tx = s.tx ++ frameBytes (nodeAddress s.cfg) 0x52 buf ∧
      buf.length = rlen s.cfg.rLenPolicy bank.length ∧
      (∀ i, i < bank.length → getBit buf buf.length i = s.answers.line i) ∧
      (∀ i, bank.length ≤ i → getBit buf buf.length i = false)

/-- R146 (the spec's decision D30): the poll reads no field of the message: with another message it does the same. -/
def Obligations.PollIgnoresMessage : Prop :=
  ∀ (s t : State) (m : InFlightMessage), exec .msgP s = .next t →
    exec .msgP { s with msg := m } = .next { t with msg := m }

/-- R144, R80: MSG_R transmits the input bank as it stands, packed, in an `'R'` frame, if the response fits; it changes
nothing but the events. That the row is this part of R144 is the model's reading (log entry 10); the padding and the
length are the spec's decisions D12 and D13. -/
def Obligations.TransmitResponseResult : Prop :=
  ∀ s : State, s.breach = none →
    (∀ bank, s.ibank = some bank → rlen s.cfg.rLenPolicy bank.length < s.cfg.maxMsgLen →
      exec .msgR s = .next
        { s with
          events := s.events ++ (frameBytes (nodeAddress s.cfg) 0x52
            (pack bank bank.length (rlen s.cfg.rLenPolicy bank.length))).map Event.txByte }) ∧
    (∀ bank, s.ibank = some bank → s.cfg.maxMsgLen ≤ rlen s.cfg.rLenPolicy bank.length →
      exec .msgR s = .next s) ∧
    (s.ibank = none → exec .msgR s = .next s)

/-- R147: a processed frame whose tag is not 49, 54 or 50, an inbound `'R'` among them, has no effect beyond the two
counters; and MSG_OTHER itself changes nothing. That a frame of an unknown type counts as processed is the spec's
decision D7 (R34; log entry 17), and that MSG_OTHER has this effect for a known type too the model's choice (log entry
13). -/
def Obligations.UnknownTypeIgnored : Prop :=
  ∀ s : State,
    (s.msg.dest = nodeAddress s.cfg → s.msg.mtype ≠ 0x49 → s.msg.mtype ≠ 0x54 → s.msg.mtype ≠ 0x50 →
      exec .dispatch s = .next
        { s with
          cnt := { s.cnt with
            framesSeen := s.cnt.framesSeen + 1, framesProcessed := s.cnt.framesProcessed + 1 } }) ∧
    (∀ t : Byte, exec (.msgOther t) s = .next s)

/-- R140, R141: every dispatched frame is counted as seen; one addressed to another node does nothing else, and one
addressed to this node is counted as processed (whatever its type: the spec's decision D7, R34; log entry 17) and then
does exactly what the row its type byte decodes to does. -/
def Obligations.DispatchCountsAndRoutes : Prop :=
  ∀ s : State,
    (s.msg.dest ≠ nodeAddress s.cfg →
      exec .dispatch s = .next { s with cnt := { s.cnt with framesSeen := s.cnt.framesSeen + 1 } }) ∧
    (∀ i : Instr, s.msg.dest = nodeAddress s.cfg → decode .msgType [s.msg.mtype] = .instr i [] →
      exec .dispatch s = exec i
        { s with
          cnt := { s.cnt with
            framesSeen := s.cnt.framesSeen + 1, framesProcessed := s.cnt.framesProcessed + 1 } })

/-- R223: a frame that ends with another node's address or with an unknown type is no error: the error count stays, the
frame is seen, a foreign one is not processed, and no event or bank changes. That an FF under `DISPATCH` ends a frame is
the spec's decision D4 (R110; log entry 3), that a frame of an unknown type for this node is processed its decision D7
(R34; log entry 17). -/
def Obligations.MismatchAndUnknownTypeNoErrors : Prop :=
  ∀ (b : Byte) (s : State), s.state = .maybeDataNext → b = 0x03 ∨ (b = 0xFF ∧ s.cfg.attnInData = .dispatch) →
    s.msg.dest ≠ nodeAddress s.cfg ∨ (s.msg.mtype ≠ 0x49 ∧ s.msg.mtype ≠ 0x54 ∧ s.msg.mtype ≠ 0x50) →
    ∃ t, feed b s = .next t ∧ t.cnt.parserErrors = s.cnt.parserErrors ∧
      t.cnt.framesSeen = s.cnt.framesSeen + 1 ∧
      t.cnt.framesProcessed = s.cnt.framesProcessed + (if s.msg.dest = nodeAddress s.cfg then 1 else 0) ∧
      t.events = s.events ∧ t.ibank = s.ibank ∧ t.obank = s.obank

/-- R148: a byte causes a transmission only if it ends a `'P'` frame addressed to this node, an input bank is configured
and the response fits (its length is the spec's decision D13). That an FF under `DISPATCH` ends a frame is the spec's
decision D4 (R110; log entry 3). -/
def Obligations.OnlyPollTransmits : Prop :=
  ∀ (b : Byte) (s t : State), feed b s = .next t → t.tx ≠ s.tx →
    s.state = .maybeDataNext ∧ (b = 0x03 ∨ (b = 0xFF ∧ s.cfg.attnInData = .dispatch)) ∧
    s.msg.dest = nodeAddress s.cfg ∧ s.msg.mtype = 0x50 ∧
    ∃ bank, s.ibank = some bank ∧ rlen s.cfg.rLenPolicy bank.length < s.cfg.maxMsgLen

/-- R27, R143, R144, R148: a byte changes the output bank only by ending a `'T'` frame, and the input bank or the coming
answers to queries only by ending a `'P'` frame, addressed to this node. A frame ends at 03, or under `DISPATCH` at FF
(the spec's decision D4, R110; log entry 3). The list `answers.lines` and the counter `draws` are the model's (log entry
4). -/
def Obligations.BanksChangeOnlyByTheirFrames : Prop :=
  ∀ (b : Byte) (s t : State), feed b s = .next t →
    (t.obank ≠ s.obank →
      s.state = .maybeDataNext ∧ (b = 0x03 ∨ (b = 0xFF ∧ s.cfg.attnInData = .dispatch)) ∧
      s.msg.dest = nodeAddress s.cfg ∧ s.msg.mtype = 0x54) ∧
    (t.ibank ≠ s.ibank ∨ t.answers.lines ≠ s.answers.lines ∨ t.answers.draws ≠ s.answers.draws →
      s.state = .maybeDataNext ∧ (b = 0x03 ∨ (b = 0xFF ∧ s.cfg.attnInData = .dispatch)) ∧
      s.msg.dest = nodeAddress s.cfg ∧ s.msg.mtype = 0x50)

/-! ## The codec -/

/-- R170: CODEC_GETBIT delivers bit `k % 8` of byte `k / 8`, or `false` if that byte is at or above the buffer length,
and changes nothing else. The field `result` that holds what it delivers is the model's (log entry 8). -/
def Obligations.GetBitReads : Prop :=
  ∀ (s : State) (buf : List Byte) (len k : Nat), len ≤ buf.length →
    (len ≤ k / 8 → exec (.codecGetbit buf len k) s = .next { s with result := .bit false }) ∧
    (∀ b, k / 8 < len → buf[k / 8]? = some b →
      exec (.codecGetbit buf len k) s = .next { s with result := .bit (b.getLsbD (k % 8)) })

/-- R171: CODEC_SETBIT delivers the buffer with that one bit set or cleared, or the buffer as it was if the byte is at
or above the buffer length (with no signal: R175, the spec's decision D33), and changes nothing else. The field `result`
that holds what it delivers is the model's (log entry 8). -/
def Obligations.SetBitWrites : Prop :=
  ∀ (s : State) (buf : List Byte) (len k : Nat) (v : Bool), len ≤ buf.length →
    (len ≤ k / 8 → exec (.codecSetbit buf len k v) s = .next { s with result := .bytes buf }) ∧
    (∀ old, k / 8 < len → buf[k / 8]? = some old →
      exec (.codecSetbit buf len k v) s = .next
        { s with
          result := .bytes (buf.set (k / 8)
            (if v then old ||| (1#8 <<< (k % 8)) else old &&& ~~~(1#8 <<< (k % 8)))) })

/-- R172, R173: CODEC_PACK delivers `len` bytes whose bit `i` is line `i`, 0 at and above `n` (the spec's decision D12);
CODEC_UNPACK delivers `n` Booleans, element `i` the bit `i`. The field `result` that holds what they deliver is the
model's (log entry 8). -/
def Obligations.PackAndUnpackResults : Prop :=
  ∀ (s : State) (bank : List Bool) (buf : List Byte) (n len : Nat),
    (bank.length = n → n ≤ 8 * len →
      ∃ out, exec (.codecPack bank n len) s = .next { s with result := .bytes out } ∧ out.length = len ∧
        (∀ i v, bank[i]? = some v → getBit out len i = v) ∧ (∀ i, n ≤ i → getBit out len i = false)) ∧
    (len ≤ buf.length →
      ∃ out, exec (.codecUnpack buf len n) s = .next { s with result := .bits out } ∧ out.length = n ∧
        ∀ i, i < n → out[i]? = some (getBit buf len i))

/-- R174, laws 1 to 3: what `getBit` reads after `setBit`, in range and beyond. -/
def Obligations.SetBitLaws : Prop :=
  ∀ (buf : List Byte) (k j : Nat) (v : Bool),
    (k < 8 * buf.length → getBit (setBit buf buf.length k v) buf.length k = v) ∧
    (k < 8 * buf.length → j ≠ k → getBit (setBit buf buf.length k v) buf.length j = getBit buf buf.length j) ∧
    (8 * buf.length ≤ k → getBit buf buf.length k = false ∧ setBit buf buf.length k v = buf)

/-- R174, laws 4 and 5: packing and unpacking are inverse on the lines; packing what was unpacked clears the padding
(the spec's decision D12), for both response lengths (D13). -/
def Obligations.PackUnpackInverse : Prop :=
  (∀ (bank : List Bool) (len : Nat), bank.length ≤ 8 * len →
    unpack (pack bank bank.length len) len bank.length = bank) ∧
  (∀ (policy : RLenPolicy) (buf : List Byte) (n : Nat), buf.length = rlen policy n →
    (pack (unpack buf buf.length n) n buf.length).length = buf.length ∧
    ∀ i, getBit (pack (unpack buf buf.length n) n buf.length) buf.length i =
      if i < n then getBit buf buf.length i else false)

/-! ## The encoder, and what a receiver makes of it -/

/-- R185, R186: ENCODE writes `FF FF 02`, the node address, the type, the payload with a `10` before each 02, 03 and 10,
and `03`, and changes nothing else. -/
def Obligations.EncodeEmitsFrame : Prop :=
  ∀ (s : State) (t : Byte) (p : List Byte), s.breach = none →
    exec (.encode t p) s = .next
      { s with
        events := s.events ++
          ([0xFF, 0xFF, 0x02, nodeAddress s.cfg, t] ++
            p.flatMap (fun x => if x = 0x02 ∨ x = 0x03 ∨ x = 0x10 then [0x10, x] else [x]) ++
            [0x03]).map Event.txByte }

/-- R74, R189: the length of a frame, its first five bytes, its last byte, and the payload in between: every 02, 03 or 10
there is either an escape `DLE` or directly follows one, and every escape `DLE` directly precedes a 02, 03 or 10. -/
def Obligations.FrameShape : Prop :=
  ∀ (d t : Byte) (p : List Byte),
    (frameBytes d t p).length = 6 + p.length + (p.filter isEscaped).length ∧
    (frameBytes d t p).take 5 = [0xFF, 0xFF, 0x02, d, t] ∧
    (frameBytes d t p).drop 5 = escPayload p ++ [0x03] ∧
    (∀ (k : Nat) (x : Byte), (escPayload p)[k]? = some x → isEscaped x = true →
      escapeDleAt (escPayload p) k = true ∨ ∃ j, k = j + 1 ∧ escapeDleAt (escPayload p) j = true) ∧
    (∀ k : Nat, escapeDleAt (escPayload p) k = true →
      ∃ x : Byte, (escPayload p)[k + 1]? = some x ∧ isEscaped x = true)

/-- R190, R191: a receiver in `START` with room for `p` that is fed a whole encoded frame dispatches exactly its
message, once, with no error, and ends in `START`, if an unescaped FF is data for it (the spec's decision D4) or `p`
holds none. Both escape policies. That every byte is counted is the spec's decision D6, `frozen` the model's field (log
entry 7). -/
def Obligations.EncodedFrameRoundTrips : Prop :=
  ∀ (s : State) (d t : Byte) (p : List Byte),
    s.state = .start → p.length ≤ s.cfg.maxMsgLen → (s.cfg.attnInData = .append ∨ (0xFF : Byte) ∉ p) →
    feedAll (frameBytes d t p) s =
      andThen
        (exec .dispatch
          { s with
            state := .maybeDataNext
            msg := { dest := d, mtype := t, payload := p, length := p.length }
            cnt := { s.cnt with bytesSeen := s.cnt.bytesSeen + (frameBytes d t p).length }
            frozen := true })
        (fun u => .next { u with state := .start })

/-- R190, R266, 90_conflicts.md C1: under `DISPATCH` (the spec's decision D4) the first FF of the payload ends the frame
with the payload before it, and the rest of the frame is fed in `START`. That every byte is counted is the spec's
decision D6, `frozen` the model's field (log entry 7). -/
def Obligations.UnescapedAttnCutsFrame : Prop :=
  ∀ (s : State) (d t : Byte) (q r : List Byte),
    s.state = .start → s.cfg.attnInData = .dispatch → (0xFF : Byte) ∉ q → q.length ≤ s.cfg.maxMsgLen →
    feedAll (frameBytes d t (q ++ 0xFF :: r)) s =
      andThen
        (exec .dispatch
          { s with
            state := .maybeDataNext
            msg := { dest := d, mtype := t, payload := q, length := q.length }
            cnt := { s.cnt with bytesSeen := s.cnt.bytesSeen + (6 + (escPayload q).length) }
            frozen := true })
        (fun u => feedAll (escPayload r ++ [0x03]) { u with state := .start })

/-- R120, R266: under `LIBERAL` a host that escapes FF too is understood whatever the payload and whatever
`ATTN_IN_DATA`: one dispatch of exactly the message, no error. That every byte is counted is the spec's decision D6,
`frozen` the model's field (log entry 7). -/
def Obligations.HostEscapedFrameAccepted : Prop :=
  ∀ (s : State) (d t : Byte) (p : List Byte),
    s.state = .start → s.cfg.escapePolicy = .liberal → p.length ≤ s.cfg.maxMsgLen →
    feedAll ([0xFF, 0xFF, 0x02, d, t] ++ p.flatMap hostEsc ++ [0x03]) s =
      andThen
        (exec .dispatch
          { s with
            state := .maybeDataNext
            msg := { dest := d, mtype := t, payload := p, length := p.length }
            cnt := { s.cnt with bytesSeen := s.cnt.bytesSeen + (6 + (p.flatMap hostEsc).length) }
            frozen := true })
        (fun u => .next { u with state := .start })

/-- R122, R120: one garbage byte other than FF before a frame costs exactly one error, and the frame is then accepted,
whichever of its payload bytes `w` are written with a `DLE` before them, if the receiver takes each for data as it is
written: so are the frames of the encoder, and those in which a host escapes FF too. That the garbage byte is consumed
by its error is the spec's decision D3, that every byte is counted D6; `frozen` is the model's field (log entry 7). -/
def Obligations.GarbageByteCostsOneError : Prop :=
  ∀ (s : State) (g d t : Byte) (w : List (Byte × Bool)),
    s.state = .start → g ≠ 0xFF → w.length ≤ s.cfg.maxMsgLen →
    (∀ x e, (x, e) ∈ w → takenAsData s.cfg x e) →
    feedAll (g :: ([0xFF, 0xFF, 0x02, d, t] ++ wirePayload w ++ [0x03])) s =
      andThen
        (exec .dispatch
          { s with
            state := .maybeDataNext
            msg := { dest := d, mtype := t, payload := w.map Prod.fst, length := w.length }
            cnt := { s.cnt with
              bytesSeen := s.cnt.bytesSeen + (7 + (wirePayload w).length)
              parserErrors := s.cnt.parserErrors + 1 }
            frozen := true })
        (fun u => .next { u with state := .start })

/-- R124, R265, 90_conflicts.md C2: an FF before a preamble loses the frame: no dispatch, and an error for the third FF,
for the `02` and for every later byte that is not FF. That a byte is consumed by its error is the spec's decision D3,
that every byte is counted D6, the header bytes 0x00 D16; `frozen` is the model's field (log entry 7). -/
def Obligations.AttnGarbageLosesFrame : Prop :=
  ∀ (s : State) (rest : List Byte), s.state = .start → (0xFF : Byte) ∉ rest →
    feedAll ([0xFF, 0xFF, 0xFF, 0x02] ++ rest) s = .next
      { s with
        msg := { dest := 0x00, mtype := 0x00, payload := [], length := 0 }
        cnt := { s.cnt with
          bytesSeen := s.cnt.bytesSeen + (4 + rest.length)
          parserErrors := s.cnt.parserErrors + (2 + rest.length) }
        frozen := true }

/-- R121: with a full payload the next data byte, escaped or not, abandons the frame; each later byte that is not FF is
a further error, and nothing is dispatched. Any byte may be the escaped one: under `STRICT` one that may not be escaped
is a bad escape, with the same effect (R115, D39, R220). Under `APPEND` (D4) an unescaped FF is a data byte too. That a
byte is consumed by its error is the spec's decision D3, that every byte is counted D6, the header bytes 0x00 D16;
`frozen` is the model's field (log entry 7). -/
def Obligations.OverflowAbandonsFrame : Prop :=
  ∀ (s : State) (b : Byte) (escaped : Bool) (rest : List Byte),
    s.state = .maybeDataNext → s.cfg.maxMsgLen ≤ s.msg.length → (0xFF : Byte) ∉ rest →
    escaped = true ∨ (b ≠ 0x03 ∧ b ≠ 0x10 ∧ (b ≠ 0xFF ∨ s.cfg.attnInData = .append)) →
    feedAll (wirePayload [(b, escaped)] ++ rest) s = .next
      { s with
        state := .start
        msg := { dest := 0x00, mtype := 0x00, payload := [], length := 0 }
        cnt := { s.cnt with
          bytesSeen := s.cnt.bytesSeen + ((if escaped then 2 else 1) + rest.length)
          parserErrors := s.cnt.parserErrors + (1 + rest.length) }
        frozen := true }

/-- R123: from any state, under any policy, `03 03 03` takes the parser to `START`, with at most one dispatch and at
most three errors on the way. That a byte is consumed by its error is the spec's decision D3. -/
def Obligations.FlushForcesStart : Prop :=
  ∀ s : State,
    (s.breach = none → ∃ t, feedAll [0x03, 0x03, 0x03] s = .next t) ∧
    ∀ t, feedAll [0x03, 0x03, 0x03] s = .next t →
      t.state = .start ∧
      s.cnt.framesSeen ≤ t.cnt.framesSeen ∧ t.cnt.framesSeen ≤ s.cnt.framesSeen + 1 ∧
      s.cnt.parserErrors ≤ t.cnt.parserErrors ∧ t.cnt.parserErrors ≤ s.cnt.parserErrors + 3

/-! ## The service loop -/

/-- R201: SERVICE counts one tick (the spec's decision D6) and feeds the bytes `RX` holds, in order, up to the first
`none` (D17), which ends the call; what stands behind it stays in `RX`. `frozen` is the model's field (log entry 7). -/
def Obligations.ServiceFeedsAvailableBytes : Prop :=
  ∀ (s : State) (bs : List Byte) (rest : List (Option Byte)),
    let entered (left : List (Option Byte)) : State :=
      { s with rx := left, cnt := { s.cnt with pollTicks := s.cnt.pollTicks + 1 }, frozen := true }
    (s.rx = bs.map some → exec .service s = feedAll bs (entered [])) ∧
    (s.rx = bs.map some ++ none :: rest → exec .service s = feedAll bs (entered rest))

/-- R201, R203, R207: a SERVICE call is the entry of the call, with its tick (the spec's decision D6), followed by one
machine step for each byte available, as long as the environment makes no other move. That a step takes the next byte of
`RX` by itself is the model's choice (log entry 6), `frozen` the model's field (log entry 7). -/
def Obligations.ServiceIsIteratedStep : Prop :=
  ∀ (s : State) (bs : List Byte), s.pending = [] → s.rx = bs.map some →
    exec .service s =
      Sys2Proof.core.run bs.length
        ({ s with cnt := { s.cnt with pollTicks := s.cnt.pollTicks + 1 }, frozen := true } : State)

/-- R202: how bytes are grouped into `service()` calls has no effect but on `poll_ticks` (one tick a call: the spec's
decision D6): two calls, the second after more bytes have arrived, do what one call does on all the bytes, and tick once
more. They also stop alike. -/
def Obligations.GroupingIrrelevant : Prop :=
  ∀ (s : State) (bs cs : List Byte), s.rx = bs.map some →
    andThen (exec .service s) (fun t => exec .service { t with rx := t.rx ++ cs.map some }) =
      andThen (exec .service { s with rx := (bs ++ cs).map some })
        (fun t => .next { t with cnt := { t.cnt with pollTicks := t.cnt.pollTicks + 1 } })

/-! ## The whole machine -/

/-- R125, R227: in an environment that keeps its duties every instruction, each of the 37, answers a next state in every
state, and so does every step that is not a registration. That a bare cell runs in a parser state that does not select it
(log entry 13), that a pending move goes first (log entry 2) and that an idle step is a `service()` call (log entry 6) are
the model's choices. -/
def Obligations.EveryInstructionCompletes : Prop :=
  ∀ s : State, s.breach = none →
    (∀ i : Instr, ∃ t, exec i s = .next t ∧ t.breach = none) ∧
    ((∀ c, s.pending.head? = some c → c ≠ .registerInit ∧ (∀ n, c ≠ .registerInput n ∧ c ≠ .registerOutput n)) →
      ∃ t, step s = .next t)

/-- R260 (the spec's decision D35), R204 (D23), R206 (D34): an environment that keeps its duties for `k` more calls and
then breaks one lets an instruction run exactly if it makes at most `k` calls (one for each event it emits); else the
machine is stuck if the callback never returns, and refuses if it re-enters. How a coming breach is written down is the
model's own (log entry 5), and so is that a bare cell runs in a parser state that does not select it (log entry 13). -/
def Obligations.BreachStopsAtItsCall : Prop :=
  ∀ (i : Instr) (s t : State) (k : Nat) (kind : BreachKind), s.breach = none → exec i s = .next t →
    exec i { s with breach := some { after := k, kind := kind } } =
      if t.events.length - s.events.length ≤ k then
        .next { t with breach := some { after := k - (t.events.length - s.events.length), kind := kind } }
      else if kind = .neverReturns then .fault .stuck
      else .refused .reentrantCall

/-- R10, R23, R24, R27, R140, R225, R251: the invariant holds after every step from every state in which it holds. Which
step is made (a pending move first, a `service()` call when idle) is the model's choice (log entries 2 and 6), and `frozen`
in the invariant the model's field (log entry 7). -/
def Obligations.StepKeepsInvariant : Prop :=
  ∀ s t : State, s.Inv → step s = .next t → t.Inv

/-- R36, R250: the invariant holds at reset. -/
def Obligations.ResetSatisfiesInvariant : Prop :=
  State.reset.Inv

/-- R251, R229: once the configuration is frozen no step changes it or thaws it; and every step that feeds a byte or, when
idle, calls `service()` (log entry 6) freezes it (the model's field, log entry 7). -/
def Obligations.FrozenConfigurationKept : Prop :=
  ∀ s t : State, step s = .next t →
    (s.frozen = true → t.cfg = s.cfg ∧ t.frozen = true) ∧
    (s.pending = [] → t.cfg = s.cfg ∧ t.frozen = true)

/-- R28, R60, R207: no step but a hardware reset lowers a counter, and every step keeps the events emitted so far, in
their order, as the beginning of the list. Which step is made (a pending move first, a `service()` call when idle) is the
model's choice (log entries 2 and 6). -/
def Obligations.CountersAndEventsOnlyGrow : Prop :=
  ∀ s t : State, step s = .next t →
    (s.pending.head? ≠ some .hardwareReset →
      s.cnt.bytesSeen ≤ t.cnt.bytesSeen ∧ s.cnt.framesSeen ≤ t.cnt.framesSeen ∧
      s.cnt.framesProcessed ≤ t.cnt.framesProcessed ∧ s.cnt.parserErrors ≤ t.cnt.parserErrors ∧
      s.cnt.pollTicks ≤ t.cnt.pollTicks) ∧
    s.events <+: t.events

/-! ## Construction, registration, reset -/

/-- R8 (the spec's decision D15), R10, R36 (D5, D16), R250: construction with a legal id and size gives the initial
state, every field of `S` as R36 says; an id outside 0..127 is refused. The reset state is the block constructed with
the defaults of R16 and id 5. The id 5, the refusal of `MAX_MSG_LEN = 0` and the environment's fields are the model's
choices (log entries 1, 2 and 7). -/
def Obligations.ConstructInitialState : Prop :=
  ∀ (id max : Nat) (e : EscapePolicy) (a : AttnInData) (r : RLenPolicy),
    (∀ h : id < 128, 1 ≤ max →
      construct id max e a r = .next
        { state := .start
          msg := { dest := 0x00, mtype := 0x00, payload := [], length := 0 }
          ibank := none
          obank := none
          cnt := { bytesSeen := 0, framesSeen := 0, framesProcessed := 0, parserErrors := 0, pollTicks := 0 }
          cfg := { localId := ⟨id, h⟩, maxMsgLen := max, escapePolicy := e, attnInData := a, rLenPolicy := r,
                   inputCount := none, outputCount := none, initPresent := false }
          frozen := false
          rx := []
          pending := []
          answers := { lines := [], inits := [], draws := 0 }
          breach := none
          events := []
          result := .none }) ∧
    (128 ≤ id → construct id max e a r = .refused (.illegalLocalId id)) ∧
    (id < 128 → max = 0 → construct id max e a r = .refused .illegalMaxMsgLen) ∧
    construct 5 72 .liberal .dispatch .plusOne = .next State.reset

/-- R251, R32: a registration supplies its part of the configuration and a bank of `false` elements (the spec's
decisions D8 and, for a count of 0, D29); a second one of its kind, and one after the configuration is frozen (the
model's field, log entry 7), are refused (D14). -/
def Obligations.RegistrationRules : Prop :=
  ∀ (s : State) (rest : List HostCall) (n : Nat),
    (s.pending = .registerInit :: rest →
      (s.cfg.initPresent = false → s.frozen = false →
        step s = .next { s with pending := rest, cfg := { s.cfg with initPresent := true } }) ∧
      (s.cfg.initPresent = true → step s = .refused .registeredTwice) ∧
      (s.cfg.initPresent = false → s.frozen = true → step s = .refused .registeredLate)) ∧
    (s.pending = .registerInput n :: rest →
      (s.cfg.inputCount = none → s.frozen = false →
        step s = .next
          { s with
            pending := rest
            cfg := { s.cfg with inputCount := some n }
            ibank := some (List.replicate n false) }) ∧
      (s.cfg.inputCount ≠ none → step s = .refused .registeredTwice) ∧
      (s.cfg.inputCount = none → s.frozen = true → step s = .refused .registeredLate)) ∧
    (s.pending = .registerOutput n :: rest →
      (s.cfg.outputCount = none → s.frozen = false →
        step s = .next
          { s with
            pending := rest
            cfg := { s.cfg with outputCount := some n }
            obank := some (List.replicate n false) }) ∧
      (s.cfg.outputCount ≠ none → step s = .refused .registeredTwice) ∧
      (s.cfg.outputCount = none → s.frozen = true → step s = .refused .registeredLate))

/-- R252 (the spec's decision D38): a hardware reset returns `S` to the state after construction and registration (banks
`false`: D8, header bytes 0x00: D16, counters 0: D5) and keeps the configuration; what is the environment's stays as it
is (log entry 7). -/
def Obligations.HardwareResetRestores : Prop :=
  ∀ (s : State) (rest : List HostCall), s.pending = .hardwareReset :: rest →
    step s = .next
      { s with
        pending := rest
        state := .start
        msg := { dest := 0x00, mtype := 0x00, payload := [], length := 0 }
        ibank := s.cfg.inputCount.map fun n => List.replicate n false
        obank := s.cfg.outputCount.map fun n => List.replicate n false
        cnt := { bytesSeen := 0, framesSeen := 0, framesProcessed := 0, parserErrors := 0, pollTicks := 0 } }

/-- R9, R22, R28, R29, R76: the node address is `LOCAL_ID + 65` without wrap, in 0x41..0xC0 and no control byte; each
parser state has the code of R22 (the spec's decision D18), and code 7 is none; the configuration view holds C0 to C8 and
the status view the counters 0 to 4, under the numbers and codes of R29 (D24), and neither holds more. -/
def Obligations.RegisterViewValues : Prop :=
  (∀ c : Config,
    (nodeAddress c).toNat = c.localId.val + 65 ∧ 0x41 ≤ (nodeAddress c).toNat ∧ (nodeAddress c).toNat ≤ 0xC0 ∧
    byteClass (nodeAddress c) = .other) ∧
  (parserStateCode .start = 0 ∧ parserStateCode .attnNext = 1 ∧ parserStateCode .stxNext = 2 ∧
    parserStateCode .addrNext = 3 ∧ parserStateCode .typeNext = 4 ∧ parserStateCode .maybeDataNext = 5 ∧
    parserStateCode .dataNext = 6) ∧
  (∀ p : ParserState, parserStateOfCode (parserStateCode p) = some p) ∧
  (∀ c : BitVec 3, parserStateOfCode c = none ↔ c = 7) ∧
  (∀ c : Config,
    configView c 0 = some (.number c.localId.val) ∧
    configView c 1 = some (.number (c.localId.val + 65)) ∧
    configView c 2 = some (.number c.maxMsgLen) ∧
    configView c 3 = some (.number (if c.escapePolicy = .strict then 1 else 0)) ∧
    configView c 4 = some (.number (if c.attnInData = .append then 1 else 0)) ∧
    configView c 5 = some (.number (if c.rLenPolicy = .ceil then 1 else 0)) ∧
    configView c 6 = some (.count c.inputCount) ∧
    configView c 7 = some (.count c.outputCount) ∧
    configView c 8 = some (.number (if c.initPresent = true then 1 else 0)) ∧
    ∀ field : Nat, 9 ≤ field → configView c field = none) ∧
  (∀ k : Counters,
    counterView k 0 = some k.bytesSeen ∧ counterView k 1 = some k.framesSeen ∧
    counterView k 2 = some k.framesProcessed ∧ counterView k 3 = some k.parserErrors ∧
    counterView k 4 = some k.pollTicks ∧
    ∀ number : Nat, 5 ≤ number → counterView k number = none)
end

