-- ==== Sys2Proof/Laws/State.lean ====
section
/-!
SUPPORT. One lemma per field per update of the state, each true by `rfl` and tagged `simp`, so that no proof unfolds a
record update.
-/

namespace Sys2Proof.Machine

@[simp] theorem State.emit_state (e : Event) (s : State) :
    (s.emit e).state = s.state := rfl
@[simp] theorem State.emit_msg (e : Event) (s : State) :
    (s.emit e).msg = s.msg := rfl
@[simp] theorem State.emit_ibank (e : Event) (s : State) :
    (s.emit e).ibank = s.ibank := rfl
@[simp] theorem State.emit_obank (e : Event) (s : State) :
    (s.emit e).obank = s.obank := rfl
@[simp] theorem State.emit_cnt (e : Event) (s : State) :
    (s.emit e).cnt = s.cnt := rfl
@[simp] theorem State.emit_cfg (e : Event) (s : State) :
    (s.emit e).cfg = s.cfg := rfl
@[simp] theorem State.emit_frozen (e : Event) (s : State) :
    (s.emit e).frozen = s.frozen := rfl
@[simp] theorem State.emit_rx (e : Event) (s : State) :
    (s.emit e).rx = s.rx := rfl
@[simp] theorem State.emit_pending (e : Event) (s : State) :
    (s.emit e).pending = s.pending := rfl
@[simp] theorem State.emit_answers (e : Event) (s : State) :
    (s.emit e).answers = s.answers := rfl
@[simp] theorem State.emit_breach (e : Event) (s : State) :
    (s.emit e).breach = s.breach := rfl
@[simp] theorem State.emit_events (e : Event) (s : State) :
    (s.emit e).events = s.events ++ [e] := rfl
@[simp] theorem State.emit_result (e : Event) (s : State) :
    (s.emit e).result = s.result := rfl

@[simp] theorem State.writeByte_state (b : Byte) (s : State) :
    (s.writeByte b).state = s.state := rfl
@[simp] theorem State.writeByte_msg (b : Byte) (s : State) :
    (s.writeByte b).msg = s.msg := rfl
@[simp] theorem State.writeByte_ibank (b : Byte) (s : State) :
    (s.writeByte b).ibank = s.ibank := rfl
@[simp] theorem State.writeByte_obank (b : Byte) (s : State) :
    (s.writeByte b).obank = s.obank := rfl
@[simp] theorem State.writeByte_cnt (b : Byte) (s : State) :
    (s.writeByte b).cnt = s.cnt := rfl
@[simp] theorem State.writeByte_cfg (b : Byte) (s : State) :
    (s.writeByte b).cfg = s.cfg := rfl
@[simp] theorem State.writeByte_frozen (b : Byte) (s : State) :
    (s.writeByte b).frozen = s.frozen := rfl
@[simp] theorem State.writeByte_rx (b : Byte) (s : State) :
    (s.writeByte b).rx = s.rx := rfl
@[simp] theorem State.writeByte_pending (b : Byte) (s : State) :
    (s.writeByte b).pending = s.pending := rfl
@[simp] theorem State.writeByte_answers (b : Byte) (s : State) :
    (s.writeByte b).answers = s.answers := rfl
@[simp] theorem State.writeByte_breach (b : Byte) (s : State) :
    (s.writeByte b).breach = s.breach := rfl
@[simp] theorem State.writeByte_events (b : Byte) (s : State) :
    (s.writeByte b).events = s.events ++ [.txByte b] := rfl
@[simp] theorem State.writeByte_result (b : Byte) (s : State) :
    (s.writeByte b).result = s.result := rfl

@[simp] theorem State.messageReset_state (s : State) :
    (s.messageReset).state = s.state := rfl
@[simp] theorem State.messageReset_msg (s : State) :
    (s.messageReset).msg = .cleared := rfl
@[simp] theorem State.messageReset_ibank (s : State) :
    (s.messageReset).ibank = s.ibank := rfl
@[simp] theorem State.messageReset_obank (s : State) :
    (s.messageReset).obank = s.obank := rfl
@[simp] theorem State.messageReset_cnt (s : State) :
    (s.messageReset).cnt = s.cnt := rfl
@[simp] theorem State.messageReset_cfg (s : State) :
    (s.messageReset).cfg = s.cfg := rfl
@[simp] theorem State.messageReset_frozen (s : State) :
    (s.messageReset).frozen = s.frozen := rfl
@[simp] theorem State.messageReset_rx (s : State) :
    (s.messageReset).rx = s.rx := rfl
@[simp] theorem State.messageReset_pending (s : State) :
    (s.messageReset).pending = s.pending := rfl
@[simp] theorem State.messageReset_answers (s : State) :
    (s.messageReset).answers = s.answers := rfl
@[simp] theorem State.messageReset_breach (s : State) :
    (s.messageReset).breach = s.breach := rfl
@[simp] theorem State.messageReset_events (s : State) :
    (s.messageReset).events = s.events := rfl
@[simp] theorem State.messageReset_result (s : State) :
    (s.messageReset).result = s.result := rfl

@[simp] theorem State.raiseFramingError_state (c : ErrorCause) (s : State) :
    (s.raiseFramingError c).state = .start := rfl
@[simp] theorem State.raiseFramingError_msg (c : ErrorCause) (s : State) :
    (s.raiseFramingError c).msg = .cleared := rfl
@[simp] theorem State.raiseFramingError_ibank (c : ErrorCause) (s : State) :
    (s.raiseFramingError c).ibank = s.ibank := rfl
@[simp] theorem State.raiseFramingError_obank (c : ErrorCause) (s : State) :
    (s.raiseFramingError c).obank = s.obank := rfl
@[simp] theorem State.raiseFramingError_cnt (c : ErrorCause) (s : State) :
    (s.raiseFramingError c).cnt = { s.cnt with parserErrors := s.cnt.parserErrors + 1 } := rfl
@[simp] theorem State.raiseFramingError_cfg (c : ErrorCause) (s : State) :
    (s.raiseFramingError c).cfg = s.cfg := rfl
@[simp] theorem State.raiseFramingError_frozen (c : ErrorCause) (s : State) :
    (s.raiseFramingError c).frozen = s.frozen := rfl
@[simp] theorem State.raiseFramingError_rx (c : ErrorCause) (s : State) :
    (s.raiseFramingError c).rx = s.rx := rfl
@[simp] theorem State.raiseFramingError_pending (c : ErrorCause) (s : State) :
    (s.raiseFramingError c).pending = s.pending := rfl
@[simp] theorem State.raiseFramingError_answers (c : ErrorCause) (s : State) :
    (s.raiseFramingError c).answers = s.answers := rfl
@[simp] theorem State.raiseFramingError_breach (c : ErrorCause) (s : State) :
    (s.raiseFramingError c).breach = s.breach := rfl
@[simp] theorem State.raiseFramingError_events (c : ErrorCause) (s : State) :
    (s.raiseFramingError c).events = s.events := rfl
@[simp] theorem State.raiseFramingError_result (c : ErrorCause) (s : State) :
    (s.raiseFramingError c).result = s.result := rfl

@[simp] theorem State.countByte_state (s : State) :
    (s.countByte).state = s.state := rfl
@[simp] theorem State.countByte_msg (s : State) :
    (s.countByte).msg = s.msg := rfl
@[simp] theorem State.countByte_ibank (s : State) :
    (s.countByte).ibank = s.ibank := rfl
@[simp] theorem State.countByte_obank (s : State) :
    (s.countByte).obank = s.obank := rfl
@[simp] theorem State.countByte_cnt (s : State) :
    (s.countByte).cnt = { s.cnt with bytesSeen := s.cnt.bytesSeen + 1 } := rfl
@[simp] theorem State.countByte_cfg (s : State) :
    (s.countByte).cfg = s.cfg := rfl
@[simp] theorem State.countByte_frozen (s : State) :
    (s.countByte).frozen = true := rfl
@[simp] theorem State.countByte_rx (s : State) :
    (s.countByte).rx = s.rx := rfl
@[simp] theorem State.countByte_pending (s : State) :
    (s.countByte).pending = s.pending := rfl
@[simp] theorem State.countByte_answers (s : State) :
    (s.countByte).answers = s.answers := rfl
@[simp] theorem State.countByte_breach (s : State) :
    (s.countByte).breach = s.breach := rfl
@[simp] theorem State.countByte_events (s : State) :
    (s.countByte).events = s.events := rfl
@[simp] theorem State.countByte_result (s : State) :
    (s.countByte).result = s.result := rfl

@[simp] theorem State.goto_state (p : ParserState) (s : State) :
    (s.goto p).state = p := rfl
@[simp] theorem State.goto_msg (p : ParserState) (s : State) :
    (s.goto p).msg = s.msg := rfl
@[simp] theorem State.goto_ibank (p : ParserState) (s : State) :
    (s.goto p).ibank = s.ibank := rfl
@[simp] theorem State.goto_obank (p : ParserState) (s : State) :
    (s.goto p).obank = s.obank := rfl
@[simp] theorem State.goto_cnt (p : ParserState) (s : State) :
    (s.goto p).cnt = s.cnt := rfl
@[simp] theorem State.goto_cfg (p : ParserState) (s : State) :
    (s.goto p).cfg = s.cfg := rfl
@[simp] theorem State.goto_frozen (p : ParserState) (s : State) :
    (s.goto p).frozen = s.frozen := rfl
@[simp] theorem State.goto_rx (p : ParserState) (s : State) :
    (s.goto p).rx = s.rx := rfl
@[simp] theorem State.goto_pending (p : ParserState) (s : State) :
    (s.goto p).pending = s.pending := rfl
@[simp] theorem State.goto_answers (p : ParserState) (s : State) :
    (s.goto p).answers = s.answers := rfl
@[simp] theorem State.goto_breach (p : ParserState) (s : State) :
    (s.goto p).breach = s.breach := rfl
@[simp] theorem State.goto_events (p : ParserState) (s : State) :
    (s.goto p).events = s.events := rfl
@[simp] theorem State.goto_result (p : ParserState) (s : State) :
    (s.goto p).result = s.result := rfl

@[simp] theorem State.countSeen_state (s : State) :
    (s.countSeen).state = s.state := rfl
@[simp] theorem State.countSeen_msg (s : State) :
    (s.countSeen).msg = s.msg := rfl
@[simp] theorem State.countSeen_ibank (s : State) :
    (s.countSeen).ibank = s.ibank := rfl
@[simp] theorem State.countSeen_obank (s : State) :
    (s.countSeen).obank = s.obank := rfl
@[simp] theorem State.countSeen_cnt (s : State) :
    (s.countSeen).cnt = { s.cnt with framesSeen := s.cnt.framesSeen + 1 } := rfl
@[simp] theorem State.countSeen_cfg (s : State) :
    (s.countSeen).cfg = s.cfg := rfl
@[simp] theorem State.countSeen_frozen (s : State) :
    (s.countSeen).frozen = s.frozen := rfl
@[simp] theorem State.countSeen_rx (s : State) :
    (s.countSeen).rx = s.rx := rfl
@[simp] theorem State.countSeen_pending (s : State) :
    (s.countSeen).pending = s.pending := rfl
@[simp] theorem State.countSeen_answers (s : State) :
    (s.countSeen).answers = s.answers := rfl
@[simp] theorem State.countSeen_breach (s : State) :
    (s.countSeen).breach = s.breach := rfl
@[simp] theorem State.countSeen_events (s : State) :
    (s.countSeen).events = s.events := rfl
@[simp] theorem State.countSeen_result (s : State) :
    (s.countSeen).result = s.result := rfl

@[simp] theorem State.countProcessed_state (s : State) :
    (s.countProcessed).state = s.state := rfl
@[simp] theorem State.countProcessed_msg (s : State) :
    (s.countProcessed).msg = s.msg := rfl
@[simp] theorem State.countProcessed_ibank (s : State) :
    (s.countProcessed).ibank = s.ibank := rfl
@[simp] theorem State.countProcessed_obank (s : State) :
    (s.countProcessed).obank = s.obank := rfl
@[simp] theorem State.countProcessed_cnt (s : State) :
    (s.countProcessed).cnt = { s.cnt with framesProcessed := s.cnt.framesProcessed + 1 } := rfl
@[simp] theorem State.countProcessed_cfg (s : State) :
    (s.countProcessed).cfg = s.cfg := rfl
@[simp] theorem State.countProcessed_frozen (s : State) :
    (s.countProcessed).frozen = s.frozen := rfl
@[simp] theorem State.countProcessed_rx (s : State) :
    (s.countProcessed).rx = s.rx := rfl
@[simp] theorem State.countProcessed_pending (s : State) :
    (s.countProcessed).pending = s.pending := rfl
@[simp] theorem State.countProcessed_answers (s : State) :
    (s.countProcessed).answers = s.answers := rfl
@[simp] theorem State.countProcessed_breach (s : State) :
    (s.countProcessed).breach = s.breach := rfl
@[simp] theorem State.countProcessed_events (s : State) :
    (s.countProcessed).events = s.events := rfl
@[simp] theorem State.countProcessed_result (s : State) :
    (s.countProcessed).result = s.result := rfl

@[simp] theorem State.callInit_state (bytes : List Byte) (len : Nat) (s : State) :
    (s.callInit bytes len).state = s.state := rfl
@[simp] theorem State.callInit_msg (bytes : List Byte) (len : Nat) (s : State) :
    (s.callInit bytes len).msg = s.msg := rfl
@[simp] theorem State.callInit_ibank (bytes : List Byte) (len : Nat) (s : State) :
    (s.callInit bytes len).ibank = s.ibank := rfl
@[simp] theorem State.callInit_obank (bytes : List Byte) (len : Nat) (s : State) :
    (s.callInit bytes len).obank = s.obank := rfl
@[simp] theorem State.callInit_cnt (bytes : List Byte) (len : Nat) (s : State) :
    (s.callInit bytes len).cnt = s.cnt := rfl
@[simp] theorem State.callInit_cfg (bytes : List Byte) (len : Nat) (s : State) :
    (s.callInit bytes len).cfg = s.cfg := rfl
@[simp] theorem State.callInit_frozen (bytes : List Byte) (len : Nat) (s : State) :
    (s.callInit bytes len).frozen = s.frozen := rfl
@[simp] theorem State.callInit_rx (bytes : List Byte) (len : Nat) (s : State) :
    (s.callInit bytes len).rx = s.rx := rfl
@[simp] theorem State.callInit_pending (bytes : List Byte) (len : Nat) (s : State) :
    (s.callInit bytes len).pending = s.pending := rfl
@[simp] theorem State.callInit_answers (bytes : List Byte) (len : Nat) (s : State) :
    (s.callInit bytes len).answers = { s.answers with inits := s.answers.inits.tail } := rfl
@[simp] theorem State.callInit_breach (bytes : List Byte) (len : Nat) (s : State) :
    (s.callInit bytes len).breach = s.breach := rfl
@[simp] theorem State.callInit_events (bytes : List Byte) (len : Nat) (s : State) :
    (s.callInit bytes len).events = s.events ++ [.initCall bytes len] := rfl
@[simp] theorem State.callInit_result (bytes : List Byte) (len : Nat) (s : State) :
    (s.callInit bytes len).result = s.result := rfl

@[simp] theorem State.writeOutput_state (i : Nat) (v : Bool) (s : State) :
    (s.writeOutput i v).state = s.state := rfl
@[simp] theorem State.writeOutput_msg (i : Nat) (v : Bool) (s : State) :
    (s.writeOutput i v).msg = s.msg := rfl
@[simp] theorem State.writeOutput_ibank (i : Nat) (v : Bool) (s : State) :
    (s.writeOutput i v).ibank = s.ibank := rfl
@[simp] theorem State.writeOutput_obank (i : Nat) (v : Bool) (s : State) :
    (s.writeOutput i v).obank = s.obank.map fun bank => bitWrite bank i v := rfl
@[simp] theorem State.writeOutput_cnt (i : Nat) (v : Bool) (s : State) :
    (s.writeOutput i v).cnt = s.cnt := rfl
@[simp] theorem State.writeOutput_cfg (i : Nat) (v : Bool) (s : State) :
    (s.writeOutput i v).cfg = s.cfg := rfl
@[simp] theorem State.writeOutput_frozen (i : Nat) (v : Bool) (s : State) :
    (s.writeOutput i v).frozen = s.frozen := rfl
@[simp] theorem State.writeOutput_rx (i : Nat) (v : Bool) (s : State) :
    (s.writeOutput i v).rx = s.rx := rfl
@[simp] theorem State.writeOutput_pending (i : Nat) (v : Bool) (s : State) :
    (s.writeOutput i v).pending = s.pending := rfl
@[simp] theorem State.writeOutput_answers (i : Nat) (v : Bool) (s : State) :
    (s.writeOutput i v).answers = s.answers := rfl
@[simp] theorem State.writeOutput_breach (i : Nat) (v : Bool) (s : State) :
    (s.writeOutput i v).breach = s.breach := rfl
@[simp] theorem State.writeOutput_events (i : Nat) (v : Bool) (s : State) :
    (s.writeOutput i v).events = s.events := rfl
@[simp] theorem State.writeOutput_result (i : Nat) (v : Bool) (s : State) :
    (s.writeOutput i v).result = s.result := rfl

@[simp] theorem State.writeInput_state (i : Nat) (v : Bool) (s : State) :
    (s.writeInput i v).state = s.state := rfl
@[simp] theorem State.writeInput_msg (i : Nat) (v : Bool) (s : State) :
    (s.writeInput i v).msg = s.msg := rfl
@[simp] theorem State.writeInput_ibank (i : Nat) (v : Bool) (s : State) :
    (s.writeInput i v).ibank = s.ibank.map fun bank => bitWrite bank i v := rfl
@[simp] theorem State.writeInput_obank (i : Nat) (v : Bool) (s : State) :
    (s.writeInput i v).obank = s.obank := rfl
@[simp] theorem State.writeInput_cnt (i : Nat) (v : Bool) (s : State) :
    (s.writeInput i v).cnt = s.cnt := rfl
@[simp] theorem State.writeInput_cfg (i : Nat) (v : Bool) (s : State) :
    (s.writeInput i v).cfg = s.cfg := rfl
@[simp] theorem State.writeInput_frozen (i : Nat) (v : Bool) (s : State) :
    (s.writeInput i v).frozen = s.frozen := rfl
@[simp] theorem State.writeInput_rx (i : Nat) (v : Bool) (s : State) :
    (s.writeInput i v).rx = s.rx := rfl
@[simp] theorem State.writeInput_pending (i : Nat) (v : Bool) (s : State) :
    (s.writeInput i v).pending = s.pending := rfl
@[simp] theorem State.writeInput_answers (i : Nat) (v : Bool) (s : State) :
    (s.writeInput i v).answers = s.answers := rfl
@[simp] theorem State.writeInput_breach (i : Nat) (v : Bool) (s : State) :
    (s.writeInput i v).breach = s.breach := rfl
@[simp] theorem State.writeInput_events (i : Nat) (v : Bool) (s : State) :
    (s.writeInput i v).events = s.events := rfl
@[simp] theorem State.writeInput_result (i : Nat) (v : Bool) (s : State) :
    (s.writeInput i v).result = s.result := rfl

@[simp] theorem State.enterService_state (s : State) :
    (s.enterService).state = s.state := rfl
@[simp] theorem State.enterService_msg (s : State) :
    (s.enterService).msg = s.msg := rfl
@[simp] theorem State.enterService_ibank (s : State) :
    (s.enterService).ibank = s.ibank := rfl
@[simp] theorem State.enterService_obank (s : State) :
    (s.enterService).obank = s.obank := rfl
@[simp] theorem State.enterService_cnt (s : State) :
    (s.enterService).cnt = { s.cnt with pollTicks := s.cnt.pollTicks + 1 } := rfl
@[simp] theorem State.enterService_cfg (s : State) :
    (s.enterService).cfg = s.cfg := rfl
@[simp] theorem State.enterService_frozen (s : State) :
    (s.enterService).frozen = true := rfl
@[simp] theorem State.enterService_rx (s : State) :
    (s.enterService).rx = s.rx := rfl
@[simp] theorem State.enterService_pending (s : State) :
    (s.enterService).pending = s.pending := rfl
@[simp] theorem State.enterService_answers (s : State) :
    (s.enterService).answers = s.answers := rfl
@[simp] theorem State.enterService_breach (s : State) :
    (s.enterService).breach = s.breach := rfl
@[simp] theorem State.enterService_events (s : State) :
    (s.enterService).events = s.events := rfl
@[simp] theorem State.enterService_result (s : State) :
    (s.enterService).result = s.result := rfl

end Sys2Proof.Machine
end

