-- ==== Sys2Proof/Laws/Ops.lean ====
section
/-!
SUPPORT. The shared operations, said once each: how a step ends, appending, queries, the transport.
-/

namespace Sys2Proof.Machine

@[simp] theorem andThen_next (s : State) (k : State → Host.Outcome State Fault Refusal) : andThen (.next s) k = k s :=
  rfl

@[simp] theorem andThen_fault (r : Fault) (k : State → Host.Outcome State Fault Refusal) :
    andThen (.fault r) k = .fault r := rfl

@[simp] theorem andThen_refused (r : Refusal) (k : State → Host.Outcome State Fault Refusal) :
    andThen (.refused r) k = .refused r := rfl

theorem andThen_assoc (o : Host.Outcome State Fault Refusal) (k l : State → Host.Outcome State Fault Refusal) :
    andThen (andThen o k) l = andThen o fun s => andThen (k s) l := by
  cases o <;> rfl

/-- If a sequence answers a next state, so did its first part. -/
theorem andThen_next_iff {o : Host.Outcome State Fault Refusal} {k : State → Host.Outcome State Fault Refusal}
    {u : State} : andThen o k = .next u ↔ ∃ t, o = .next t ∧ k t = .next u := by
  cases o <;> simp [andThen]

/-- With an environment that keeps its duties, a step ends in the state its effects give. -/
theorem settle_of_breach_none {s t : State} (h : s.breach = none) : settle s t = .next t := by
  simp [settle, h]

/-- All the ways a step ends. -/
theorem settle_cases (s t : State) :
    (s.breach = none ∧ settle s t = .next t) ∨
    (∃ b, s.breach = some b ∧ callsMade s t ≤ b.after ∧
      settle s t = .next { t with breach := some { b with after := b.after - callsMade s t } }) ∨
    (∃ b, s.breach = some b ∧ b.after < callsMade s t ∧
      settle s t = match b.kind with
        | .neverReturns => .fault .stuck
        | .reenters => .refused .reentrantCall) := by
  cases h : s.breach with
  | none => exact .inl ⟨rfl, settle_of_breach_none h⟩
  | some b =>
    by_cases hc : callsMade s t ≤ b.after
    · exact .inr (.inl ⟨b, rfl, hc, by simp [settle, h, hc]⟩)
    · exact .inr (.inr ⟨b, rfl, by omega, by cases hk : b.kind <;> simp [settle, h, hc, hk]⟩)

/-- If a step answers a next state, it is the state its effects give but for the breach's count. -/
theorem settle_next {s t u : State} (h : settle s t = .next u) :
    ∃ br, u = { t with breach := br } ∧ (s.breach = none → u = t) := by
  rcases settle_cases s t with ⟨hb, e⟩ | ⟨b, hb, -, e⟩ | ⟨b, hb, -, e⟩
  · rw [e] at h
    cases h
    exact ⟨_, rfl, fun _ => rfl⟩
  · rw [e] at h
    cases h
    exact ⟨_, rfl, fun hn => by simp [hb] at hn⟩
  · rw [e] at h
    cases hk : b.kind <;> simp [hk] at h

/-- A step that makes no call into the environment ends in the state its effects give, whatever the environment does. -/
theorem settle_silent {s t : State} (he : t.events = s.events) (hb : t.breach = s.breach) :
    settle s t = .next t := by
  rcases settle_cases s t with ⟨-, e⟩ | ⟨b, h, -, e⟩ | ⟨b, h, hlt, -⟩
  · exact e
  · rw [e]
    have : callsMade s t = 0 := by simp [callsMade, he]
    rw [this]
    cases t
    simp_all
  · simp [callsMade, he] at hlt

/-- A change of the state that the end of a step does not look at commutes with it. -/
theorem settle_map (f : State → State) {s s' t : State} (hb : s'.breach = s.breach)
    (hc : callsMade s' (f t) = callsMade s t) (hf : ∀ br, { f t with breach := br } = f { t with breach := br }) :
    settle s' (f t) = andThen (settle s t) fun u => .next (f u) := by
  cases h : s.breach with
  | none => rw [settle_of_breach_none h, settle_of_breach_none (hb.trans h)]; rfl
  | some b =>
    have hb' : s'.breach = some b := hb.trans h
    simp only [settle, h, hb', hc]
    by_cases hle : callsMade s t ≤ b.after
    · rw [if_pos hle, if_pos hle, hf]
      rfl
    · rw [if_neg hle, if_neg hle]
      cases b.kind <;> rfl

/-- `append` (R25) succeeds exactly when the payload is not full. -/
theorem append_of_lt {s : State} {b : Byte} (h : s.msg.length < s.cfg.maxMsgLen) :
    s.append b = some { s with msg := { s.msg with payload := s.msg.payload ++ [b], length := s.msg.length + 1 } } := by
  simp [State.append, h]

/-- `append` (R25) fails when the payload is full. -/
theorem append_of_full {s : State} {b : Byte} (h : s.cfg.maxMsgLen ≤ s.msg.length) : s.append b = none := by
  simp [State.append, Nat.not_lt.mpr h]

/-- Taking a data byte with room for it. -/
theorem takeData_of_lt {s : State} {b : Byte} (h : s.msg.length < s.cfg.maxMsgLen) :
    s.takeData b =
      { s with
        msg := { s.msg with payload := s.msg.payload ++ [b], length := s.msg.length + 1 }
        state := .maybeDataNext } := by
  simp [State.takeData, append_of_lt h, State.goto]

/-- Taking a data byte without room for it is an overflow error (R221). -/
theorem takeData_of_full {s : State} {b : Byte} (h : s.cfg.maxMsgLen ≤ s.msg.length) :
    s.takeData b = s.raiseFramingError .overflow := by
  simp [State.takeData, append_of_full h]

/-- The error transition as one update (R220). -/
theorem raiseFramingError_eq (c : ErrorCause) (s : State) :
    s.raiseFramingError c =
      { s with state := .start, msg := .cleared, cnt := { s.cnt with parserErrors := s.cnt.parserErrors + 1 } } := rfl

/-- Every data byte either is stored or is an overflow error. -/
theorem takeData_cases (b : Byte) (s : State) :
    (s.msg.length < s.cfg.maxMsgLen ∧ s.takeData b =
      { s with
        msg := { s.msg with payload := s.msg.payload ++ [b], length := s.msg.length + 1 }
        state := .maybeDataNext }) ∨
    (s.cfg.maxMsgLen ≤ s.msg.length ∧ s.takeData b = s.raiseFramingError .overflow) := by
  by_cases h : s.msg.length < s.cfg.maxMsgLen
  · exact .inl ⟨h, takeData_of_lt h⟩
  · exact .inr ⟨Nat.le_of_not_lt h, takeData_of_full (Nat.le_of_not_lt h)⟩

/-- The answer to a query is the first line answer. -/
theorem nextLine_fst (a : Answers) : a.nextLine.1 = a.line 0 := by
  cases h : a.lines <;> simp [Answers.nextLine, Answers.line, h]

/-- What a query leaves of the answers. -/
theorem nextLine_snd (a : Answers) : a.nextLine.2 = a.afterQueries 1 := by
  cases h : a.lines <;> simp [Answers.nextLine, Answers.afterQueries, h]

/-- Answers are consumed in query order (R203). -/
theorem line_afterQueries (a : Answers) (n i : Nat) : (a.afterQueries n).line i = a.line (n + i) := by
  simp only [Answers.line, Answers.afterQueries, List.getD_eq_getElem?_getD, List.getElem?_drop, List.length_drop]
  by_cases h : n + i < a.lines.length
  · simp [h]
  · have : a.lines.length ≤ n + i := by omega
    simp only [List.getElem?_eq_none this, Option.getD_none]
    congr 1
    omega

theorem afterQueries_zero (a : Answers) : a.afterQueries 0 = a := by
  cases a; simp [Answers.afterQueries]

theorem afterQueries_add (a : Answers) (m n : Nat) : (a.afterQueries m).afterQueries n = a.afterQueries (m + n) := by
  simp only [Answers.afterQueries, List.drop_drop, List.length_drop, Answers.mk.injEq, true_and]
  omega

/-- A query as one update. -/
theorem queryInputLine_eq (i : Nat) (s : State) :
    s.queryInputLine i =
      (s.answers.line 0,
        { s with answers := s.answers.afterQueries 1, events := s.events ++ [.inputQuery i (s.answers.line 0)] }) := by
  simp [State.queryInputLine, nextLine_fst, nextLine_snd, State.emit]

/-- Writing bytes to the transport appends their events in order (R187). -/
theorem transmit_eq (out : List Byte) (s : State) :
    s.transmit out = { s with events := s.events ++ out.map Event.txByte } := by
  induction out generalizing s with
  | nil => simp [State.transmit]
  | cons x out ih =>
    have h := ih (s.writeByte x)
    simp only [State.transmit, List.foldl_cons] at h ⊢
    rw [h]
    simp [State.writeByte, State.emit]

/-- The encoder as one update (R185). -/
theorem encodeFrame_eq (t : Byte) (p : List Byte) (s : State) :
    s.encodeFrame t p =
      { s with events := s.events ++ (frameBytes (nodeAddress s.cfg) t p).map Event.txByte } :=
  transmit_eq _ _

/-- `tx` reads the `TxByte` events. -/
theorem tx_eq_of_events {s t : State} (h : t.events = s.events) : t.tx = s.tx := by
  simp [State.tx, h]

end Sys2Proof.Machine
end

