-- ==== Sys2Proof/Laws/Codec.lean ====
section
/-!
SUPPORT. The bit-array codec: what one bit of a buffer reads as, and what a write of one bit leaves.
-/

namespace Sys2Proof.Machine

/-- The mask of a bit index selects exactly its offset (R53). -/
theorem getLsbD_bitMask (k j : Nat) : (bitMask k).getLsbD j = (j < 8 && decide (j = k % 8)) := by
  have h8 : k % 8 < 8 := Nat.mod_lt _ (by decide)
  simp only [bitMask, bitOffset, BitVec.getLsbD_shiftLeft, BitVec.getLsbD_one]
  by_cases hj : j < 8 <;> simp [hj]
  by_cases hlt : j < k % 8
  · simp [hlt]; omega
  · simp [hlt]; omega

theorem getElem_bitMask (k j : Nat) (h : j < 8) : (bitMask k)[j] = decide (j = k % 8) := by
  rw [← BitVec.getLsbD_eq_getElem, getLsbD_bitMask]
  simp [h]

/-- Testing one bit by its mask. -/
theorem and_bitMask_ne_zero (b : Byte) (k : Nat) : ((b &&& bitMask k) != 0#8) = b.getLsbD (k % 8) := by
  have h8 : k % 8 < 8 := Nat.mod_lt _ (by decide)
  cases hb : b.getLsbD (k % 8)
  · have : b &&& bitMask k = 0#8 := by
      apply BitVec.eq_of_getLsbD_eq
      intro i hi
      simp only [BitVec.getLsbD_and, getLsbD_bitMask, BitVec.getLsbD_zero]
      by_cases h : i = k % 8
      · simp [h, hb]
      · simp [h]
    simp [this]
  · have : b &&& bitMask k ≠ 0#8 := by
      intro h
      have := congrArg (fun x => x.getLsbD (k % 8)) h
      simp only [BitVec.getLsbD_and, getLsbD_bitMask, hb, h8] at this
      simp at this
    simp [this]

/-- `getBit` (R170): the bit of the byte, or `false` beyond the buffer. -/
theorem getBit_eq (buf : List Byte) (len k : Nat) :
    getBit buf len k = (decide (k / 8 < len) && (memRead buf (k / 8)).getLsbD (k % 8)) := by
  by_cases h : k / 8 < len
  · have h' : ¬ len ≤ k / 8 := by omega
    simp [getBit, byteIndex, h, h', and_bitMask_ne_zero]
  · have h' : len ≤ k / 8 := by omega
    simp [getBit, byteIndex, h, h']

/-- Beyond the buffer `getBit` reads `false` (R57, R170). -/
theorem getBit_beyond {buf : List Byte} {len k : Nat} (h : 8 * len ≤ k) : getBit buf len k = false := by
  have : ¬ k / 8 < len := by omega
  simp [getBit_eq, this]

/-- Beyond the buffer `setBit` does nothing (R57, R171). -/
theorem setBit_beyond {buf : List Byte} {len k : Nat} {v : Bool} (h : 8 * len ≤ k) : setBit buf len k v = buf := by
  have : len ≤ k / 8 := by omega
  simp [setBit, byteIndex, this]

/-- A buffer never grows or shrinks (R171). -/
@[simp] theorem length_setBit (buf : List Byte) (len k : Nat) (v : Bool) : (setBit buf len k v).length = buf.length := by
  simp only [setBit, memWrite]
  split <;> simp

/-- What one bit reads as after a write of one bit (R174). -/
theorem getBit_setBit {buf : List Byte} {len k : Nat} (hlen : len ≤ buf.length) (hk : k < 8 * len) (v : Bool) (j : Nat) :
    getBit (setBit buf len k v) len j = if j = k then v else getBit buf len j := by
  have hk8 : k / 8 < len := by omega
  have hk8' : ¬ len ≤ k / 8 := by omega
  have hj8 : j % 8 < 8 := Nat.mod_lt _ (by decide)
  simp only [getBit_eq, setBit, byteIndex, ge_iff_le, hk8', if_false, memWrite, memRead, List.getD_eq_getElem?_getD,
    List.getElem?_set]
  by_cases hj : j / 8 < len
  · by_cases hb : k / 8 = j / 8
    · have hlt : j / 8 < buf.length := by omega
      by_cases hjk : j = k
      · subst hjk
        cases v <;> simp [hlt, getElem_bitMask, hj, hj8]
      · have hne : j % 8 ≠ k % 8 := by omega
        cases v <;> simp [hb, hlt, getElem_bitMask, hj, hne, hjk, hj8]
    · have hjk : j ≠ k := fun h => hb (by rw [h])
      simp [hb, hjk]
  · have hjk : j ≠ k := by rintro rfl; exact hj hk8
    simp [hj, hjk]

/-- The loop of `pack`, after the first `m` lines. -/
theorem packLoop (bank : List Bool) (len m : Nat) (hm : m ≤ 8 * len) :
    ((List.range m).foldl (fun buf i => setBit buf len i (bitRead bank i)) (List.replicate len 0#8)).length = len ∧
    ∀ j, getBit ((List.range m).foldl (fun buf i => setBit buf len i (bitRead bank i)) (List.replicate len 0#8)) len j =
      (decide (j < m) && bitRead bank j) := by
  induction m with
  | zero =>
    refine ⟨by simp, fun j => ?_⟩
    simp only [getBit_eq, List.range_zero, List.foldl_nil, memRead, List.getD_eq_getElem?_getD, List.getElem?_replicate]
    by_cases h : j / 8 < len <;> simp [h]
  | succ m ih =>
    obtain ⟨hl, hg⟩ := ih (by omega)
    rw [List.range_succ, List.foldl_append]
    refine ⟨by simp [hl], fun j => ?_⟩
    simp only [List.foldl_cons, List.foldl_nil]
    rw [getBit_setBit (by rw [hl]) (by omega), hg]
    by_cases hj : j = m
    · simp [hj]
    · by_cases hlt : j < m
      · have : j < m + 1 := by omega
        simp [hj, hlt, this]
      · have : ¬ j < m + 1 := by omega
        simp [hj, hlt, this]

/-- A packed buffer has `len` bytes (R172). -/
theorem length_pack (bank : List Bool) (n len : Nat) : (pack bank n len).length = len := by
  have : ∀ (l : List Nat) (b : List Byte),
      (l.foldl (fun buf i => setBit buf len i (bitRead bank i)) b).length = b.length := by
    intro l
    induction l with
    | nil => simp
    | cons x l ih => intro b; simp [ih]
  simp [pack, this]

/-- The bits of a packed buffer: line `j` below `n`, padding 0 at and above it (R172). -/
theorem getBit_pack {bank : List Bool} {n len : Nat} (h : n ≤ 8 * len) (j : Nat) :
    getBit (pack bank n len) len j = (decide (j < n) && bitRead bank j) :=
  (packLoop bank len n h).2 j

/-- Both response lengths hold every line (R145, R172). -/
theorem le_rlen (p : RLenPolicy) (n : Nat) : n ≤ 8 * rlen p n := by
  cases p <;> simp only [rlen] <;> omega

@[simp] theorem length_unpack (buf : List Byte) (len n : Nat) : (unpack buf len n).length = n := by
  simp [unpack]

/-- One element of an unpacked bank (R173). -/
theorem bitRead_unpack {buf : List Byte} {len n i : Nat} (h : i < n) : bitRead (unpack buf len n) i = getBit buf len i := by
  simp [bitRead, unpack, h]

/-- Two buffers of `len` bytes with the same bits are the same. -/
theorem buf_ext {a b : List Byte} {len : Nat} (ha : a.length = len) (hb : b.length = len)
    (h : ∀ k, k < 8 * len → getBit a len k = getBit b len k) : a = b := by
  apply List.ext_getElem (by rw [ha, hb])
  intro i hi hi'
  apply BitVec.eq_of_getLsbD_eq
  intro j hj
  have := h (8 * i + j) (by omega)
  have e1 : (8 * i + j) / 8 = i := by omega
  have e2 : (8 * i + j) % 8 = j := by omega
  have hil : i < len := by omega
  simpa [getBit_eq, memRead, e1, e2, hil, List.getD_eq_getElem?_getD, hi, hi'] using this

end Sys2Proof.Machine
end

