-- ==== Sys2Proof/Laws/Handlers.lean ====
section
/-!
SUPPORT. The handlers' loops in closed form (spec R142 to R144).
-/

namespace Sys2Proof.Machine

/-- The bank while the first `k` lines have been replaced. -/
theorem set_partial {bank new : List Bool} {k : Nat} {v : Bool} (hn : new.length = k) (hk : k < bank.length) :
    (new ++ bank.drop k).set k v = (new ++ [v]) ++ bank.drop (k + 1) := by
  rw [List.set_append_right _ _ (by omega), hn, Nat.sub_self, List.drop_eq_getElem_cons hk, List.set_cons_zero]
  simp

theorem sampled_succ (a : Answers) (k : Nat) : a.sampled (k + 1) = a.sampled k ++ [a.line k] := by
  simp [Answers.sampled, List.range_succ]

@[simp] theorem length_sampled (a : Answers) (k : Nat) : (a.sampled k).length = k := by
  simp [Answers.sampled]

theorem queryEvents_succ (a : Answers) (k : Nat) :
    queryEvents a (k + 1) = queryEvents a k ++ [.inputQuery k (a.line k)] := by
  simp [queryEvents, List.range_succ]

/-- The sampling loop (R144): every line is queried in ascending order and stored, nothing else changes. -/
theorem sampleInputs_eq {s : State} {bank : List Bool} (hb : s.ibank = some bank) {n : Nat} (hn : n ≤ bank.length) :
    s.sampleInputs n =
      { s with
        ibank := some (s.answers.sampled n ++ bank.drop n)
        answers := s.answers.afterQueries n
        events := s.events ++ queryEvents s.answers n } := by
  induction n with
  | zero =>
    simp [State.sampleInputs, Answers.sampled, queryEvents, afterQueries_zero, hb.symm]
  | succ k ih =>
    have hk : k < bank.length := by omega
    have ih' := ih (by omega)
    rw [State.sampleInputs] at ih' ⊢
    rw [List.range_succ, List.foldl_append, ih', List.foldl_cons, List.foldl_nil]
    simp only [sampleLine, queryInputLine_eq, State.writeInput, Option.map_some, bitWrite, line_afterQueries,
      afterQueries_add, Nat.add_zero, set_partial (length_sampled _ _) hk, sampled_succ, queryEvents_succ,
      List.append_assoc]

/-- What the `'T'` loop has emitted after the first `k` lines. -/
theorem changes_succ (m : InFlightMessage) (bank : List Bool) (k : Nat) :
    (List.range (k + 1)).filterMap (fun i =>
      if getBit m.payload m.length i = bitRead bank i then none
      else some (Event.outputLine i (getBit m.payload m.length i))) =
    (List.range k).filterMap (fun i =>
      if getBit m.payload m.length i = bitRead bank i then none
      else some (Event.outputLine i (getBit m.payload m.length i))) ++
    (if getBit m.payload m.length k = bitRead bank k then []
     else [Event.outputLine k (getBit m.payload m.length k)]) := by
  rw [List.range_succ, List.filterMap_append]
  congr 1
  by_cases h : getBit m.payload m.length k = bitRead bank k <;> simp [h]

/-- The loop of R143 after the first `k` lines. -/
theorem applyLoop (m : InFlightMessage) {s : State} {bank : List Bool} (hb : s.obank = some bank) {k : Nat}
    (hk : k ≤ bank.length) :
    (List.range k).foldl (applyLine m) (s, false) =
      ({ s with
          obank := some (unpack m.payload m.length k ++ bank.drop k)
          events := s.events ++ (List.range k).filterMap (fun i =>
            if getBit m.payload m.length i = bitRead bank i then none
            else some (Event.outputLine i (getBit m.payload m.length i))) },
        decide ((List.range k).filterMap (fun i =>
          if getBit m.payload m.length i = bitRead bank i then none
          else some (Event.outputLine i (getBit m.payload m.length i))) ≠ [])) := by
  induction k with
  | zero => simp [unpack, hb.symm]
  | succ k ih =>
    have hlt : k < bank.length := by omega
    have hu : unpack m.payload m.length (k + 1) = unpack m.payload m.length k ++ [getBit m.payload m.length k] := by
      simp [unpack, List.range_succ]
    have hr : bitRead (unpack m.payload m.length k ++ bank.drop k) k = bitRead bank k := by
      simp [bitRead, List.getD_eq_getElem?_getD, List.getElem?_append_right]
    rw [changes_succ, List.range_succ, List.foldl_append, ih (by omega), List.foldl_cons, List.foldl_nil, hu]
    by_cases h : getBit m.payload m.length k = bitRead bank k
    · have hd : bank.drop k = getBit m.payload m.length k :: bank.drop (k + 1) := by
        rw [List.drop_eq_getElem_cons hlt, h]
        simp [bitRead, List.getD_eq_getElem?_getD, hlt]
      simp only [applyLine, State.readOutput, Option.getD_some, hr, h, bne_self_eq_false, Bool.false_eq_true, if_false,
        if_true, List.append_nil]
      rw [hd, h]
      simp
    · have hne : (getBit m.payload m.length k != bitRead bank k) = true := by simpa using h
      simp only [applyLine, State.readOutput, Option.getD_some, hr, hne, if_true, State.writeOutput, Option.map_some,
        bitWrite, set_partial (length_unpack _ _ _) hlt, State.emit, h, if_false, List.append_assoc]
      simp

/-- `apply_outputs` (R143) in closed form: the bank becomes the payload's bits, and the changes are reported. -/
theorem applyOutputs_eq (m : InFlightMessage) {s : State} {bank : List Bool} (hb : s.obank = some bank) :
    s.applyOutputs m =
      { s with
        obank := some (unpack m.payload m.length bank.length)
        events := s.events ++ applyEvents m bank } := by
  have hl := applyLoop m hb (Nat.le_refl bank.length)
  simp only [List.drop_length, List.append_nil] at hl
  simp only [State.applyOutputs, hb, hl, applyEvents]
  have hsnap : ∀ u : State, u.obank = some (unpack m.payload m.length bank.length) →
      (List.range bank.length).map u.readOutput = unpack m.payload m.length bank.length := by
    intro u hu
    apply List.map_congr_left
    intro i hi
    simp [State.readOutput, hu, bitRead_unpack (List.mem_range.mp hi)]
  rw [← changeEvents]
  by_cases h : changeEvents m bank = []
  · simp [h]
  · simp only [h, ne_eq, not_false_eq_true, decide_true, if_true, if_false, State.emit, List.append_assoc]
    rw [hsnap _ rfl]

/-- Without an output bank `apply_outputs` does nothing (R143, D9). -/
theorem applyOutputs_none (m : InFlightMessage) {s : State} (hb : s.obank = none) : s.applyOutputs m = s := by
  simp [State.applyOutputs, hb]

/-- The transmission of the poll response (R144): one frame, or nothing. -/
theorem sendResponse_eq {s : State} {bank : List Bool} (hb : s.ibank = some bank) :
    s.sendResponse =
      if rlen s.cfg.rLenPolicy bank.length < s.cfg.maxMsgLen then
        { s with
          events := s.events ++ (frameBytes (nodeAddress s.cfg) tagR
            (pack bank bank.length (rlen s.cfg.rLenPolicy bank.length))).map Event.txByte }
      else s := by
  simp only [State.sendResponse, hb, encodeFrame_eq]

theorem sendResponse_none {s : State} (hb : s.ibank = none) : s.sendResponse = s := by
  simp [State.sendResponse, hb]

/-- `poll_inputs` (R144) in closed form. -/
theorem pollInputs_eq {s : State} {bank : List Bool} (hb : s.ibank = some bank) :
    s.pollInputs =
      { s with
        ibank := some (s.answers.sampled bank.length)
        answers := s.answers.afterQueries bank.length
        events := s.events ++ queryEvents s.answers bank.length ++
          if rlen s.cfg.rLenPolicy bank.length < s.cfg.maxMsgLen then
            (frameBytes (nodeAddress s.cfg) tagR
              (pack (s.answers.sampled bank.length) bank.length
                (rlen s.cfg.rLenPolicy bank.length))).map Event.txByte
          else [] } := by
  simp only [State.pollInputs, hb]
  rw [sampleInputs_eq hb (Nat.le_refl _), List.drop_length, List.append_nil, sendResponse_eq rfl]
  simp only [length_sampled]
  split <;> simp

theorem pollInputs_none {s : State} (hb : s.ibank = none) : s.pollInputs = s := by
  simp [State.pollInputs, hb]

/-- `init_handler` (R142). -/
theorem initHandler_eq (m : InFlightMessage) (s : State) :
    s.initHandler m =
      if s.cfg.initPresent then
        { s with
          answers := { s.answers with inits := s.answers.inits.tail }
          events := s.events ++ [.initCall (m.payload.take m.length) m.length] }
      else s := rfl

end Sys2Proof.Machine
end

