-- ==== Sys2Proof/Laws/Effect.lean ====
section
/-!
SUPPORT. Every instruction but SERVICE is one effect on the state followed by the end of the step: what that effect can
do, said once for all of them.
-/

namespace Sys2Proof.Machine

/-- The effect of an instruction on the state, before the step ends. SERVICE is a sequence of such steps. -/
def effect (i : Instr) (s : State) : State :=
  match i with
  | .rxStartAttn => s.countByte.messageReset.goto .attnNext
  | .rxStartStx => s.countByte.raiseFramingError .startNotAttn
  | .rxStartEtx => s.countByte.raiseFramingError .startNotAttn
  | .rxStartDle => s.countByte.raiseFramingError .startNotAttn
  | .rxStartOther _ => s.countByte.raiseFramingError .startNotAttn
  | .rxAttnNextAttn => s.countByte.goto .stxNext
  | .rxAttnNextStx => s.countByte.raiseFramingError .attnNextNotAttn
  | .rxAttnNextEtx => s.countByte.raiseFramingError .attnNextNotAttn
  | .rxAttnNextDle => s.countByte.raiseFramingError .attnNextNotAttn
  | .rxAttnNextOther _ => s.countByte.raiseFramingError .attnNextNotAttn
  | .rxStxNextStx => s.countByte.goto .addrNext
  | .rxStxNextAttn => s.countByte.raiseFramingError .stxNextNotStx
  | .rxStxNextEtx => s.countByte.raiseFramingError .stxNextNotStx
  | .rxStxNextDle => s.countByte.raiseFramingError .stxNextNotStx
  | .rxStxNextOther _ => s.countByte.raiseFramingError .stxNextNotStx
  | .rxAddrNextAny b => { s.countByte with msg := { s.msg with dest := b }, state := .typeNext }
  | .rxTypeNextAny b => { s.countByte with msg := { s.msg with mtype := b }, state := .maybeDataNext }
  | .rxMaybeDataNextEtx => s.countByte.dispatch.goto .start
  | .rxMaybeDataNextAttn =>
    match s.cfg.attnInData with
    | .dispatch => s.countByte.dispatch.goto .start
    | .append => s.countByte.takeData ATTN
  | .rxMaybeDataNextStx => s.countByte.takeData STX
  | .rxMaybeDataNextOther b => s.countByte.takeData b
  | .rxMaybeDataNextDle => s.countByte.goto .dataNext
  | .rxDataNextAnyLiberal b => s.countByte.takeData b
  | .rxDataNextCtrlStrict b => s.countByte.takeData b
  | .rxDataNextNonctrlStrict _ => s.countByte.raiseFramingError .badEscape
  | .msgI => s.initHandler s.msg
  | .msgT => s.applyOutputs s.msg
  | .msgP => s.pollInputs
  | .msgOther _ => s
  | .msgR => s.sendResponse
  | .dispatch => s.dispatch
  | .codecGetbit buf len k => { s with result := .bit (getBit buf len k) }
  | .codecSetbit buf len k v => { s with result := .bytes (setBit buf len k v) }
  | .codecPack bank n len => { s with result := .bytes (pack bank n len) }
  | .codecUnpack buf len n => { s with result := .bits (unpack buf len n) }
  | .encode t p => s.encodeFrame t p
  | .service => s

/-- Every instruction but SERVICE is its effect, then the end of the step. -/
theorem exec_eq_settle {i : Instr} (hi : i ≠ .service) (s : State) : exec i s = settle s (effect i s) := by
  cases i <;> first | exact absurd rfl hi | rfl | exact (settle_silent rfl rfl).symm

/-- What the environment owns of the state, and the tick counter only `service()` writes. -/
def State.withEnv (s : State) (rx : List (Option Byte)) (pending : List HostCall) (breach : Option Breach)
    (ticks : Nat) : State :=
  { s with rx := rx, pending := pending, breach := breach, cnt := { s.cnt with pollTicks := ticks } }

section
variable (r : List (Option Byte)) (p : List HostCall) (b : Option Breach) (k : Nat) (s : State)

theorem initHandler_withEnv (m : InFlightMessage) :
    (s.withEnv r p b k).initHandler m = (s.initHandler m).withEnv r p b k := by
  simp only [initHandler_eq, State.withEnv]
  split <;> rfl

theorem applyOutputs_withEnv (m : InFlightMessage) :
    (s.withEnv r p b k).applyOutputs m = (s.applyOutputs m).withEnv r p b k := by
  cases h : s.obank with
  | none => rw [applyOutputs_none m h, applyOutputs_none m (s := s.withEnv r p b k) h]
  | some bank => rw [applyOutputs_eq m h, applyOutputs_eq m (s := s.withEnv r p b k) h]; rfl

theorem sendResponse_withEnv : (s.withEnv r p b k).sendResponse = s.sendResponse.withEnv r p b k := by
  cases h : s.ibank with
  | none => rw [sendResponse_none h, sendResponse_none (s := s.withEnv r p b k) h]
  | some bank =>
    have h1 := sendResponse_eq h
    have h2 := sendResponse_eq (s := s.withEnv r p b k) h
    by_cases hr : rlen s.cfg.rLenPolicy bank.length < s.cfg.maxMsgLen
    · rw [h1.trans (if_pos hr), h2.trans (if_pos hr)]; rfl
    · rw [h1.trans (if_neg hr), h2.trans (if_neg hr)]

theorem pollInputs_withEnv : (s.withEnv r p b k).pollInputs = s.pollInputs.withEnv r p b k := by
  cases h : s.ibank with
  | none => rw [pollInputs_none h, pollInputs_none (s := s.withEnv r p b k) h]
  | some bank => rw [pollInputs_eq h, pollInputs_eq (s := s.withEnv r p b k) h]; rfl

theorem route_withEnv (m : InFlightMessage) : (s.withEnv r p b k).route m = (s.route m).withEnv r p b k := by
  simp only [State.route, initHandler_withEnv, applyOutputs_withEnv, pollInputs_withEnv]
  split <;> [rfl; split <;> [rfl; split <;> rfl]]

theorem dispatch_withEnv : (s.withEnv r p b k).dispatch = s.dispatch.withEnv r p b k := by
  have hc : (s.withEnv r p b k).countSeen = s.countSeen.withEnv r p b k := rfl
  have hp : (s.withEnv r p b k).countSeen.countProcessed = s.countSeen.countProcessed.withEnv r p b k := rfl
  have hm : (s.withEnv r p b k).msg = s.msg := rfl
  have hf : (s.withEnv r p b k).cfg = s.cfg := rfl
  simp only [State.dispatch, hm, hf, hp, route_withEnv]
  split <;> [rfl; exact hc]

theorem takeData_withEnv (x : Byte) : (s.withEnv r p b k).takeData x = (s.takeData x).withEnv r p b k := by
  by_cases h : s.msg.length < s.cfg.maxMsgLen
  · rw [takeData_of_lt h, takeData_of_lt (s := s.withEnv r p b k) h]; rfl
  · have h' := Nat.le_of_not_lt h
    rw [takeData_of_full h', takeData_of_full (s := s.withEnv r p b k) h']; rfl

/-- An effect neither reads nor writes what the environment owns. -/
theorem effect_withEnv (i : Instr) : effect i (s.withEnv r p b k) = (effect i s).withEnv r p b k := by
  have hd := dispatch_withEnv r p b k s.countByte
  have ht := fun x => takeData_withEnv r p b k s.countByte x
  have hc : (s.withEnv r p b k).countByte = s.countByte.withEnv r p b k := rfl
  have hm : (s.withEnv r p b k).msg = s.msg := rfl
  cases i
  case msgI => exact initHandler_withEnv r p b k s s.msg
  case msgT => exact applyOutputs_withEnv r p b k s s.msg
  case msgP => exact pollInputs_withEnv r p b k s
  case msgR => exact sendResponse_withEnv r p b k s
  case dispatch => exact dispatch_withEnv r p b k s
  case encode t q => simp only [effect, encodeFrame_eq]; rfl
  case rxMaybeDataNextEtx => simp only [effect, hc, hd]; rfl
  case rxMaybeDataNextAttn =>
    have hf : (s.withEnv r p b k).cfg = s.cfg := rfl
    simp only [effect, hf, hc, hd, ht]
    cases s.cfg.attnInData <;> rfl
  case rxMaybeDataNextStx => simp only [effect, hc, ht]
  case rxMaybeDataNextOther => simp only [effect, hc, ht]
  case rxDataNextAnyLiberal => simp only [effect, hc, ht]
  case rxDataNextCtrlStrict => simp only [effect, hc, ht]
  all_goals rfl

end

theorem withEnv_self (s : State) : s.withEnv s.rx s.pending s.breach s.cnt.pollTicks = s := rfl

section
variable (i : Instr) (s : State)

theorem effect_eq_withEnv : effect i s = (effect i s).withEnv s.rx s.pending s.breach s.cnt.pollTicks := by
  have h := effect_withEnv s.rx s.pending s.breach s.cnt.pollTicks s i
  rwa [withEnv_self] at h

theorem effect_rx : (effect i s).rx = s.rx := by rw [effect_eq_withEnv]; rfl
theorem effect_pending : (effect i s).pending = s.pending := by rw [effect_eq_withEnv]; rfl
theorem effect_breach : (effect i s).breach = s.breach := by rw [effect_eq_withEnv]; rfl
theorem effect_pollTicks : (effect i s).cnt.pollTicks = s.cnt.pollTicks := by rw [effect_eq_withEnv]; rfl

end

end Sys2Proof.Machine
end

