-- ==== Sys2Proof/Laws/Feed.lean ====
section
/-!
SUPPORT. `feed`, runs of it, and the service loop.
-/

namespace Sys2Proof.Machine

/-- A received byte never decodes to SERVICE. -/
theorem decodeRx_ne_service (policy : EscapePolicy) (st : ParserState) (b : Byte) : decodeRx policy st b ≠ .service := by
  cases policy <;> cases st <;> simp only [decodeRx] <;> cases byteClass b <;> simp

/-- `feed` runs the cell the decoder selects (R100). -/
theorem feed_eq_exec (b : Byte) (s : State) : feed b s = exec (decodeRx s.cfg.escapePolicy s.state b) s := by
  unfold feed decodeRx
  cases s.state <;> cases byteClass b <;> cases s.cfg.escapePolicy <;> rfl

/-- `feed` is one effect, then the end of the step. -/
theorem feed_eq_settle (b : Byte) (s : State) :
    feed b s = settle s (effect (decodeRx s.cfg.escapePolicy s.state b) s) := by
  rw [feed_eq_exec, exec_eq_settle (decodeRx_ne_service _ _ _)]

/-- What a byte of class `OTHER` is not. -/
theorem byteClass_of_other {b : Byte} (h1 : b ≠ 0xFF) (h2 : b ≠ 0x02) (h3 : b ≠ 0x10) (h4 : b ≠ 0x03) :
    byteClass b = .other := by
  rw [byteClass, ATTN, STX, DLE, ETX, if_neg h1, if_neg h2, if_neg h3, if_neg h4]

/-- A run splits where its bytes do (R207). -/
theorem feedAll_append (bs cs : List Byte) (s : State) :
    feedAll (bs ++ cs) s = andThen (feedAll bs s) (feedAll cs) := by
  induction bs generalizing s with
  | nil => rfl
  | cons b bs ih =>
    simp only [List.cons_append, feedAll, andThen_assoc]
    congr 1
    funext t
    exact ih t

/-- The state with another `RX`, other pending moves and another tick count: nothing `feed` looks at. -/
def State.withQueue (rx : List (Option Byte)) (pending : List HostCall) (ticks : Nat) (s : State) : State :=
  s.withEnv rx pending s.breach ticks

theorem withQueue_withQueue (r r' : List (Option Byte)) (p p' : List HostCall) (k k' : Nat) (s : State) :
    (s.withQueue r p k).withQueue r' p' k' = s.withQueue r' p' k' := rfl

theorem settle_withQueue (r : List (Option Byte)) (p : List HostCall) (k : Nat) (s t : State) :
    settle (s.withQueue r p k) (t.withQueue r p k) =
      andThen (settle s t) fun u => .next (u.withQueue r p k) := by
  cases hb : s.breach with
  | none =>
    have hb' : (s.withQueue r p k).breach = none := hb
    rw [settle_of_breach_none hb, settle_of_breach_none hb', andThen_next]
  | some br =>
    have hb' : (s.withQueue r p k).breach = some br := hb
    have hc : callsMade (s.withQueue r p k) (t.withQueue r p k) = callsMade s t := rfl
    simp only [settle, hb, hb', hc]
    by_cases hle : callsMade s t ≤ br.after
    · rw [if_pos hle, if_pos hle, andThen_next]
      rfl
    · rw [if_neg hle, if_neg hle]
      cases br.kind <;> rfl

/-- `feed` neither reads nor writes `RX`, the pending moves or the tick count. -/
theorem feed_withQueue (r : List (Option Byte)) (p : List HostCall) (k : Nat) (b : Byte) (s : State) :
    feed b (s.withQueue r p k) = andThen (feed b s) fun u => .next (u.withQueue r p k) := by
  rw [feed_eq_settle, feed_eq_settle, ← settle_withQueue]
  have he := effect_withEnv r p s.breach k s (decodeRx s.cfg.escapePolicy s.state b)
  have hb := effect_breach (decodeRx s.cfg.escapePolicy s.state b) s
  have : (effect (decodeRx s.cfg.escapePolicy s.state b) s).withQueue r p k =
      effect (decodeRx s.cfg.escapePolicy s.state b) (s.withQueue r p k) := by
    rw [State.withQueue, State.withQueue, hb, he]
  rw [this]
  rfl

/-- A run neither reads nor writes `RX`, the pending moves or the tick count. -/
theorem feedAll_withQueue (r : List (Option Byte)) (p : List HostCall) (k : Nat) (bs : List Byte) (s : State) :
    feedAll bs (s.withQueue r p k) = andThen (feedAll bs s) fun u => .next (u.withQueue r p k) := by
  induction bs generalizing s with
  | nil => rfl
  | cons b bs ih =>
    simp only [feedAll, feed_withQueue, andThen_assoc, andThen_next]
    congr 1
    funext t
    exact ih t

/-- What `feed` leaves of the environment's side. -/
theorem feed_next {b : Byte} {s t : State} (h : feed b s = .next t) :
    ∃ br, t = { effect (decodeRx s.cfg.escapePolicy s.state b) s with breach := br } ∧
      (s.breach = none → t = effect (decodeRx s.cfg.escapePolicy s.state b) s) :=
  settle_next (feed_eq_settle b s ▸ h)

theorem feed_rx {b : Byte} {s t : State} (h : feed b s = .next t) : t.rx = s.rx := by
  obtain ⟨br, rfl, -⟩ := feed_next h
  exact effect_rx _ _

theorem feed_pending {b : Byte} {s t : State} (h : feed b s = .next t) : t.pending = s.pending := by
  obtain ⟨br, rfl, -⟩ := feed_next h
  exact effect_pending _ _

end Sys2Proof.Machine
end

