-- ==== Sys2Proof/Laws/Dispatcher.lean ====
section
/-!
SUPPORT. Byte classes, routing and dispatch, the service loop, registration and the step: what each can do, said once.
-/

namespace Sys2Proof.Machine

/-- The five classes of a byte (R72). -/
theorem byteClass_cases (b : Byte) :
    (b = 0xFF ∧ byteClass b = .attn) ∨ (b = 0x02 ∧ byteClass b = .stx) ∨ (b = 0x10 ∧ byteClass b = .dle) ∨
    (b = 0x03 ∧ byteClass b = .etx) ∨
    ((b ≠ 0xFF ∧ b ≠ 0x02 ∧ b ≠ 0x03 ∧ b ≠ 0x10) ∧ byteClass b = .other) := by
  revert b
  decide

/-- Taking a data byte emits nothing. -/
theorem takeData_events (b : Byte) (s : State) : (s.takeData b).events = s.events := by
  rcases takeData_cases b s with ⟨-, h⟩ | ⟨-, h⟩
  · rw [h]
  · rw [h]
    rfl

/-- The handler a message's type selects (R141). -/
theorem route_cases (m : InFlightMessage) (s : State) :
    (m.mtype = 0x49 ∧ s.route m = s.initHandler m) ∨ (m.mtype = 0x54 ∧ s.route m = s.applyOutputs m) ∨
    (m.mtype = 0x50 ∧ s.route m = s.pollInputs) ∨
    ((m.mtype ≠ 0x49 ∧ m.mtype ≠ 0x54 ∧ m.mtype ≠ 0x50) ∧ s.route m = s) := by
  unfold State.route
  by_cases h1 : m.mtype = tagI
  · exact .inl ⟨h1, if_pos h1⟩
  · by_cases h2 : m.mtype = tagT
    · exact .inr (.inl ⟨h2, by rw [if_neg h1, if_pos h2]⟩)
    · by_cases h3 : m.mtype = tagP
      · exact .inr (.inr (.inl ⟨h3, by rw [if_neg h1, if_neg h2, if_pos h3]⟩))
      · exact .inr (.inr (.inr ⟨⟨h1, h2, h3⟩, by rw [if_neg h1, if_neg h2, if_neg h3]⟩))

/-- What no handler touches: the message, the counters, the configuration, the parser state; events are only added. -/
theorem route_frame (m : InFlightMessage) (s : State) :
    (s.route m).msg = s.msg ∧ (s.route m).cnt = s.cnt ∧ (s.route m).cfg = s.cfg ∧ (s.route m).state = s.state ∧
      (s.route m).frozen = s.frozen ∧ ∃ es, (s.route m).events = s.events ++ es := by
  rcases route_cases m s with ⟨-, e⟩ | ⟨-, e⟩ | ⟨-, e⟩ | ⟨-, e⟩ <;> rw [e]
  · rw [initHandler_eq]
    split <;> simp
  · rcases Option.eq_none_or_eq_some s.obank with h | ⟨bank, h⟩
    · simp [applyOutputs_none m h]
    · simp [applyOutputs_eq m h]
  · rcases Option.eq_none_or_eq_some s.ibank with h | ⟨bank, h⟩
    · simp [pollInputs_none h]
    · simp [pollInputs_eq h, List.append_assoc]
  · simp

/-- Dispatch (R140): a foreign frame is counted; one for this node is counted and routed. -/
theorem dispatch_cases (s : State) :
    (s.msg.dest = nodeAddress s.cfg ∧ s.dispatch = s.countSeen.countProcessed.route s.msg) ∨
    (s.msg.dest ≠ nodeAddress s.cfg ∧ s.dispatch = s.countSeen) := by
  unfold State.dispatch
  by_cases h : s.msg.dest = nodeAddress s.cfg
  · exact .inl ⟨h, if_pos h⟩
  · exact .inr ⟨h, if_neg h⟩

/-- What dispatch leaves, and its counters. -/
theorem dispatch_frame (s : State) :
    s.dispatch.msg = s.msg ∧
    s.dispatch.cnt =
      { s.cnt with
        framesSeen := s.cnt.framesSeen + 1
        framesProcessed := s.cnt.framesProcessed + (if s.msg.dest = nodeAddress s.cfg then 1 else 0) } ∧
    s.dispatch.cfg = s.cfg ∧ s.dispatch.frozen = s.frozen ∧ ∃ es, s.dispatch.events = s.events ++ es := by
  rcases dispatch_cases s with ⟨h, e⟩ | ⟨h, e⟩ <;> rw [e]
  · obtain ⟨h1, h2, h3, -, h5, h6⟩ := route_frame s.msg s.countSeen.countProcessed
    refine ⟨h1, ?_, h3, h5, h6⟩
    rw [h2, if_pos h]
    rfl
  · refine ⟨rfl, ?_, rfl, rfl, [], by simp⟩
    rw [if_neg h]
    rfl

/-- A byte whose cell calls nothing in the environment is fed whatever the environment does. -/
theorem feed_of_silent (b : Byte) (s : State)
    (h : (effect (decodeRx s.cfg.escapePolicy s.state b) s).events = s.events) :
    feed b s = .next (effect (decodeRx s.cfg.escapePolicy s.state b) s) := by
  rw [feed_eq_settle]
  exact settle_silent h (effect_breach _ _)

/-- What `RX` holds: bytes, then nothing or a `none`. -/
theorem rx_split (l : List (Option Byte)) :
    ∃ (bs : List Byte) (rest : List (Option Byte)), (rest = [] ∨ ∃ r, rest = none :: r) ∧ l = bs.map some ++ rest := by
  induction l with
  | nil => exact ⟨[], [], .inl rfl, rfl⟩
  | cons x l ih =>
    cases x with
    | none => exact ⟨[], none :: l, .inr ⟨l, rfl⟩, rfl⟩
    | some b =>
      obtain ⟨bs, rest, h1, h2⟩ := ih
      exact ⟨b :: bs, rest, h1, by simp [h2]⟩

/-- The loop of R201: it feeds the bytes before the first `none`, and takes that `none` too. -/
theorem drain_eq (bs : List Byte) (n : Nat) (rest : List (Option Byte)) (s : State)
    (hr : rest = [] ∨ ∃ r, rest = none :: r) (hx : s.rx = bs.map some ++ rest) (hn : bs.length + rest.length ≤ n) :
    drain n s = andThen (feedAll bs { s with rx := [] }) fun u => .next { u with rx := rest.tail } := by
  induction bs generalizing n s with
  | nil =>
    rcases hr with rfl | ⟨r, rfl⟩
    · have hs' : ({ s with rx := [] } : State) = s := by
        cases s
        simp_all
      cases n <;> simp [drain, feedAll, State.bytesAvailable, hx, hs']
    · obtain ⟨m, rfl⟩ : ∃ m, n = m + 1 := ⟨n - 1, by simp at hn; omega⟩
      simp [drain, feedAll, State.bytesAvailable, hx, State.readByte]
  | cons b bs ih =>
    obtain ⟨m, rfl⟩ : ∃ m, n = m + 1 := ⟨n - 1, by simp at hn; omega⟩
    simp only [drain, State.bytesAvailable, hx, State.readByte, List.map_cons, List.cons_append, List.length_cons]
    rw [if_pos (by omega)]
    simp only [feedAll]
    have h1 := feed_withQueue (bs.map some ++ rest) s.pending s.cnt.pollTicks b s
    have h2 := feed_withQueue [] s.pending s.cnt.pollTicks b s
    rw [show ({ s with rx := bs.map some ++ rest } : State) =
      s.withQueue (bs.map some ++ rest) s.pending s.cnt.pollTicks from rfl, h1]
    rw [show ({ s with rx := [] } : State) = s.withQueue [] s.pending s.cnt.pollTicks from rfl, h2]
    simp only [andThen_assoc, andThen_next]
    congr 1
    funext t
    rw [ih m (t.withQueue (bs.map some ++ rest) s.pending s.cnt.pollTicks) rfl (by simp at hn ⊢; omega)]
    rfl

/-- A registration that is accepted was the first of its kind and in time (R251). -/
theorem register_next {already : Bool} {f : State → State} {s t : State} (h : register already f s = .next t) :
    already = false ∧ s.frozen = false ∧ t = f s := by
  unfold register at h
  cases already <;> simp at h
  cases hf : s.frozen <;> simp [hf] at h
  exact ⟨rfl, rfl, h.symm⟩

/-- What `fetch` finds. -/
theorem fetch_some {s t : State} {i : Instr} (h : fetch s = some (i, t)) :
    ∃ b rest, s.rx = some b :: rest ∧ t = { s with rx := rest } ∧ i = decodeRx s.cfg.escapePolicy s.state b := by
  unfold fetch State.readByte at h
  rcases hx : s.rx with _ | ⟨_ | b, rest⟩ <;> rw [hx] at h <;> simp [decode] at h
  exact ⟨b, rest, rfl, h.2.symm, h.1.symm⟩

end Sys2Proof.Machine
end

