-- ==== Sys2Proof/Laws/Encoder.lean ====
section
/-!
SUPPORT. The escape function and payloads on the wire (spec R120, R186, R189).
-/

namespace Sys2Proof.Machine

/-- A control byte other than FF, as `esc` tests it (R186). -/
theorem isEscaped_iff (x : Byte) : isEscaped x = true ↔ x = 0x02 ∨ x = 0x03 ∨ x = 0x10 := by
  simp [isEscaped, or_assoc]

/-- `esc` on the bytes it escapes (R186). -/
theorem esc_of_isEscaped {x : Byte} (h : isEscaped x = true) : esc x = [0x10, x] :=
  if_pos ((isEscaped_iff x).mp h)

/-- `esc` on every other byte, FF among them (R186). -/
theorem esc_of_not_isEscaped {x : Byte} (h : ¬ isEscaped x = true) : esc x = [x] :=
  if_neg fun hx => h ((isEscaped_iff x).mpr hx)

@[simp] theorem escPayload_nil : escPayload [] = [] := rfl

@[simp] theorem escPayload_cons (x : Byte) (p : List Byte) : escPayload (x :: p) = esc x ++ escPayload p := rfl

@[simp] theorem wirePayload_nil : wirePayload [] = [] := rfl

@[simp] theorem wirePayload_cons_escaped (x : Byte) (w : List (Byte × Bool)) :
    wirePayload ((x, true) :: w) = 0x10 :: x :: wirePayload w := rfl

@[simp] theorem wirePayload_cons_plain (x : Byte) (w : List (Byte × Bool)) :
    wirePayload ((x, false) :: w) = x :: wirePayload w := rfl

/-- The encoder's payload is the one in which exactly 02, 03 and 10 are written with a `DLE` (R186). -/
theorem wirePayload_map_isEscaped (p : List Byte) : wirePayload (p.map fun x => (x, isEscaped x)) = escPayload p := by
  induction p with
  | nil => rfl
  | cons x p ih =>
    by_cases h : isEscaped x = true
    · simp [h, esc_of_isEscaped h, ih]
    · simp [h, esc_of_not_isEscaped h, ih]

/-- Behind an escape `DLE` and its byte, escape `DLE`s are found as at the start. -/
theorem escapeDleAt_escaped (x : Byte) (l : List Byte) (k : Nat) :
    escapeDleAt (0x10 :: x :: l) (k + 2) = escapeDleAt l k := by
  induction k with
  | zero => simp [escapeDleAt]
  | succ k ih => rw [escapeDleAt, ih, escapeDleAt]; simp

/-- Behind a byte that is no 10, escape `DLE`s are found as at the start. -/
theorem escapeDleAt_plain {x : Byte} (h : x ≠ 0x10) (l : List Byte) (k : Nat) :
    escapeDleAt (x :: l) (k + 1) = escapeDleAt l k := by
  induction k with
  | zero =>
    have h0 : escapeDleAt (x :: l) 0 = false := by simpa [escapeDleAt] using h
    show ((x :: l)[0 + 1]? == some 0x10 && !escapeDleAt (x :: l) 0) = _
    rw [h0]
    simp [escapeDleAt]
  | succ k ih => rw [escapeDleAt, ih, escapeDleAt]; simp

end Sys2Proof.Machine
end

