-- ==== Sys2Proof/Laws/Payload.lean ====
section
/-!
SUPPORT. The canonical form of the payload storage, kept by every operation on it (spec R23 to R25).
-/

namespace Sys2Proof.Machine

/-- What the canonical form says. -/
theorem InFlightMessage.wf_iff (max : Nat) (m : InFlightMessage) :
    m.wf max = true ↔ m.length = m.payload.length ∧ m.length ≤ max := by
  simp [InFlightMessage.wf]

/-- The cleared record has the form. -/
theorem InFlightMessage.wf_cleared (max : Nat) : InFlightMessage.cleared.wf max = true := by
  simp [InFlightMessage.wf, InFlightMessage.cleared]

/-- The state after reset has it. -/
theorem State.reset_payload_wf : State.reset.msg.wf State.reset.cfg.maxMsgLen = true := rfl

/-- Message reset gives it (R24). -/
theorem State.messageReset_wf (max : Nat) (s : State) : s.messageReset.msg.wf max = true :=
  InFlightMessage.wf_cleared max

/-- The error transition gives it (R220). -/
theorem State.raiseFramingError_wf (max : Nat) (c : ErrorCause) (s : State) :
    (s.raiseFramingError c).msg.wf max = true :=
  InFlightMessage.wf_cleared max

/-- Appending keeps it (R25). -/
theorem State.append_wf {s t : State} {b : Byte} (hs : s.msg.wf s.cfg.maxMsgLen = true) (h : s.append b = some t) :
    t.msg.wf s.cfg.maxMsgLen = true := by
  rw [InFlightMessage.wf_iff] at hs ⊢
  by_cases hl : s.msg.length < s.cfg.maxMsgLen
  · rw [append_of_lt hl] at h
    cases h
    simp only [List.length_append, List.length_singleton]
    omega
  · rw [append_of_full (Nat.le_of_not_lt hl)] at h
    cases h

/-- Taking a data byte keeps it (R111, R112, R114, R115). -/
theorem State.takeData_wf {s : State} (b : Byte) (hs : s.msg.wf s.cfg.maxMsgLen = true) :
    (s.takeData b).msg.wf s.cfg.maxMsgLen = true := by
  rcases takeData_cases b s with ⟨hl, e⟩ | ⟨-, e⟩
  · rw [e]
    exact State.append_wf (b := b) (t := { s with msg := { s.msg with payload := s.msg.payload ++ [b], length := s.msg.length + 1 } })
      hs (append_of_lt hl)
  · rw [e]
    exact State.raiseFramingError_wf _ _ _

/-- A payload in the form is read back as stored: the byte appended is the last one, and no other changes (R25, R31). -/
theorem memRead_append (p : List Byte) (b : Byte) (k : Nat) :
    memRead (p ++ [b]) k = if k = p.length then b else memRead p k := by
  simp only [memRead, List.getD_eq_getElem?_getD]
  by_cases h : k = p.length
  · simp [h]
  · by_cases hk : k < p.length
    · simp [h, List.getElem?_append_left hk]
    · have : p.length ≤ k := by omega
      have h1 : (p ++ [b])[k]? = none := by simp; omega
      have h2 : p[k]? = none := by simp; omega
      simp [h, h1, h2]

/-- A buffer write leaves every other byte (R17, R171). -/
theorem memRead_memWrite (buf : List Byte) (addr k : Nat) (v : Byte) (h : addr < buf.length) :
    memRead (memWrite buf addr v) k = if k = addr then v else memRead buf k := by
  simp only [memRead, memWrite, List.getD_eq_getElem?_getD, List.getElem?_set]
  by_cases hk : k = addr
  · simp [hk, h]
  · simp [hk, Ne.symm hk]

end Sys2Proof.Machine
end

