-- ==== Sys2Proof/Laws/PerInstr.lean ====
section
/-!
SUPPORT. Statements about every instruction as syntax, one lemma per constructor.
-/

namespace Sys2Proof.Laws.OneByte

/-- An instruction that has an encoding is encoded in exactly one byte (spec R70). -/
def Statement (i : Instr) : Prop :=
  ∀ (site : Site) (ws : List Byte), encode i = some (site, ws) → ws.length = 1

/-- From the encoder's answer. -/
theorem of_some {i : Instr} {site : Site} {b : Byte} (h : encode i = some (site, [b])) : Statement i := by
  intro site' ws h'
  rw [h] at h'
  cases h'
  rfl

/-- An instruction without bytes. -/
theorem of_none {i : Instr} (h : encode i = none) : Statement i := by
  intro site ws h'
  rw [h] at h'
  cases h'

theorem rxStartAttn : Statement .rxStartAttn := of_some rfl
theorem rxStartStx : Statement .rxStartStx := of_some rfl
theorem rxStartEtx : Statement .rxStartEtx := of_some rfl
theorem rxStartDle : Statement .rxStartDle := of_some rfl
theorem rxStartOther (b : Byte) : Statement (.rxStartOther b) := of_some rfl
theorem rxAttnNextAttn : Statement .rxAttnNextAttn := of_some rfl
theorem rxAttnNextStx : Statement .rxAttnNextStx := of_some rfl
theorem rxAttnNextEtx : Statement .rxAttnNextEtx := of_some rfl
theorem rxAttnNextDle : Statement .rxAttnNextDle := of_some rfl
theorem rxAttnNextOther (b : Byte) : Statement (.rxAttnNextOther b) := of_some rfl
theorem rxStxNextStx : Statement .rxStxNextStx := of_some rfl
theorem rxStxNextAttn : Statement .rxStxNextAttn := of_some rfl
theorem rxStxNextEtx : Statement .rxStxNextEtx := of_some rfl
theorem rxStxNextDle : Statement .rxStxNextDle := of_some rfl
theorem rxStxNextOther (b : Byte) : Statement (.rxStxNextOther b) := of_some rfl
theorem rxAddrNextAny (b : Byte) : Statement (.rxAddrNextAny b) := of_some rfl
theorem rxTypeNextAny (b : Byte) : Statement (.rxTypeNextAny b) := of_some rfl
theorem rxMaybeDataNextEtx : Statement .rxMaybeDataNextEtx := of_some rfl
theorem rxMaybeDataNextAttn : Statement .rxMaybeDataNextAttn := of_some rfl
theorem rxMaybeDataNextStx : Statement .rxMaybeDataNextStx := of_some rfl
theorem rxMaybeDataNextOther (b : Byte) : Statement (.rxMaybeDataNextOther b) := of_some rfl
theorem rxMaybeDataNextDle : Statement .rxMaybeDataNextDle := of_some rfl
theorem rxDataNextAnyLiberal (b : Byte) : Statement (.rxDataNextAnyLiberal b) := of_some rfl
theorem rxDataNextCtrlStrict (b : Byte) : Statement (.rxDataNextCtrlStrict b) := of_some rfl
theorem rxDataNextNonctrlStrict (b : Byte) : Statement (.rxDataNextNonctrlStrict b) := of_some rfl
theorem msgI : Statement .msgI := of_some rfl
theorem msgT : Statement .msgT := of_some rfl
theorem msgP : Statement .msgP := of_some rfl
theorem msgOther (t : Byte) : Statement (.msgOther t) := of_some rfl
theorem msgR : Statement .msgR := of_some rfl
theorem dispatch : Statement .dispatch := of_none rfl
theorem codecGetbit (buf : List Byte) (bufferLen bitIndex : Nat) : Statement (.codecGetbit buf bufferLen bitIndex) := of_none rfl
theorem codecSetbit (buf : List Byte) (bufferLen bitIndex : Nat) (value : Bool) : Statement (.codecSetbit buf bufferLen bitIndex value) := of_none rfl
theorem codecPack (bank : List Bool) (n len : Nat) : Statement (.codecPack bank n len) := of_none rfl
theorem codecUnpack (buf : List Byte) (len n : Nat) : Statement (.codecUnpack buf len n) := of_none rfl
theorem encode (t : Byte) (payload : List Byte) : Statement (.encode t payload) := of_none rfl
theorem service : Statement .service := of_none rfl

end Sys2Proof.Laws.OneByte
end

