-- ==== Sys2Proof/Tests/Slice0.lean ====
section
/-!
SUPPORT. The model's own tests: the smoke test of each well-formedness check, words written out from the opcode table,
vectors of spec/95_test_vectors.md, and, for every statement with hypotheses, values that meet them.
-/

namespace Sys2Proof.Tests

open Sys2Proof.Machine

/-! ## Helpers -/

/-- One view of the next state of an outcome; `none` for a stop. -/
def seen {α : Type} (o : Host.Outcome State Fault Refusal) (f : State → α) : Option α :=
  match o with
  | .next t => some (f t)
  | .fault _ => none
  | .refused _ => none

/-- The reset state with another parser state. -/
def at_ (p : ParserState) : State := { State.reset with state := p }

/-- A record. -/
def record (d t : Byte) (p : List Byte) : InFlightMessage := { dest := d, mtype := t, payload := p, length := p.length }

/-- The reset state (node address 46) in the payload of a frame. -/
def inFrame (d t : Byte) (p : List Byte) : State := { State.reset with state := .maybeDataNext, msg := record d t p }

/-- The reset state with these bytes in `RX`. -/
def holding (bs : List Byte) : State := { State.reset with rx := bs.map some }

/-- With an output bank. -/
def withOutputs (bank : List Bool) (s : State) : State :=
  { s with obank := some bank, cfg := { s.cfg with outputCount := some bank.length } }

/-- With an input bank of `n` lines and the environment's answers to come. -/
def withInputs (n : Nat) (lines : List Bool) (s : State) : State :=
  { s with
    ibank := some (List.replicate n false)
    cfg := { s.cfg with inputCount := some n }
    answers := { s.answers with lines := lines } }

/-- With the other escape policy. -/
def strict (s : State) : State := { s with cfg := { s.cfg with escapePolicy := .strict } }

/-- With the other meaning of FF in the payload. -/
def appending (s : State) : State := { s with cfg := { s.cfg with attnInData := .append } }

/-- With another payload limit. -/
def limited (max : Nat) (s : State) : State := { s with cfg := { s.cfg with maxMsgLen := max } }

/-- With the environment's next move planned. -/
def planned (c : HostCall) (s : State) : State := { s with pending := [c] }

/-! ## Well-formedness: an ill-formed term for each check -/

theorem test_wf_startOther : Instr.wf (.rxStartOther 0xFF) = false ∧ Instr.wf (.rxStartOther 0x55) = true := by decide
theorem test_wf_attnNextOther : Instr.wf (.rxAttnNextOther 0x02) = false := by decide
theorem test_wf_stxNextOther : Instr.wf (.rxStxNextOther 0x03) = false := by decide
theorem test_wf_maybeDataNextOther : Instr.wf (.rxMaybeDataNextOther 0x10) = false := by decide
theorem test_wf_ctrlStrict : Instr.wf (.rxDataNextCtrlStrict 0xFF) = false ∧
    Instr.wf (.rxDataNextCtrlStrict 0x10) = true := by decide
theorem test_wf_nonctrlStrict : Instr.wf (.rxDataNextNonctrlStrict 0x02) = false ∧
    Instr.wf (.rxDataNextNonctrlStrict 0xFF) = true := by decide
theorem test_wf_msgOther : Instr.wf (.msgOther 0x50) = false ∧ Instr.wf (.msgOther 0x70) = true := by decide
theorem test_wf_getbit : Instr.wf (.codecGetbit [0x05] 2 0) = false := by decide
theorem test_wf_setbit : Instr.wf (.codecSetbit [0x05] 2 0 true) = false := by decide
theorem test_wf_pack : Instr.wf (.codecPack [true] 2 1) = false := by decide
theorem test_wf_unpack : Instr.wf (.codecUnpack [] 1 3) = false := by decide

/-! ## Decoding: the words of spec/opcode_table.json, bit by bit, at the row's site -/

theorem test_decode_start :
    decode (.rx .start .liberal) [0b11111111] = .instr .rxStartAttn [] ∧
    decode (.rx .start .liberal) [0b00000010] = .instr .rxStartStx [] ∧
    decode (.rx .start .liberal) [0b00000011] = .instr .rxStartEtx [] ∧
    decode (.rx .start .liberal) [0b00010000] = .instr .rxStartDle [] ∧
    decode (.rx .start .liberal) [0b01010101] = .instr (.rxStartOther 0x55) [] := by decide

theorem test_decode_attnNext :
    decode (.rx .attnNext .liberal) [0b11111111] = .instr .rxAttnNextAttn [] ∧
    decode (.rx .attnNext .liberal) [0b00000010] = .instr .rxAttnNextStx [] ∧
    decode (.rx .attnNext .liberal) [0b00000011] = .instr .rxAttnNextEtx [] ∧
    decode (.rx .attnNext .liberal) [0b00010000] = .instr .rxAttnNextDle [] ∧
    decode (.rx .attnNext .liberal) [0b00000000] = .instr (.rxAttnNextOther 0x00) [] := by decide

theorem test_decode_stxNext :
    decode (.rx .stxNext .liberal) [0b00000010] = .instr .rxStxNextStx [] ∧
    decode (.rx .stxNext .liberal) [0b11111111] = .instr .rxStxNextAttn [] ∧
    decode (.rx .stxNext .liberal) [0b00000011] = .instr .rxStxNextEtx [] ∧
    decode (.rx .stxNext .liberal) [0b00010000] = .instr .rxStxNextDle [] ∧
    decode (.rx .stxNext .liberal) [0b01000110] = .instr (.rxStxNextOther 0x46) [] := by decide

theorem test_decode_header :
    decode (.rx .addrNext .liberal) [0b11111111] = .instr (.rxAddrNextAny 0xFF) [] ∧
    decode (.rx .addrNext .strict) [0b01000110, 0x50] = .instr (.rxAddrNextAny 0x46) [0x50] ∧
    decode (.rx .typeNext .liberal) [0b00000011] = .instr (.rxTypeNextAny 0x03) [] := by decide

theorem test_decode_maybeDataNext :
    decode (.rx .maybeDataNext .liberal) [0b00000011] = .instr .rxMaybeDataNextEtx [] ∧
    decode (.rx .maybeDataNext .liberal) [0b11111111] = .instr .rxMaybeDataNextAttn [] ∧
    decode (.rx .maybeDataNext .liberal) [0b00000010] = .instr .rxMaybeDataNextStx [] ∧
    decode (.rx .maybeDataNext .strict) [0b00000101] = .instr (.rxMaybeDataNextOther 0x05) [] ∧
    decode (.rx .maybeDataNext .liberal) [0b00010000] = .instr .rxMaybeDataNextDle [] := by decide

theorem test_decode_dataNext :
    decode (.rx .dataNext .liberal) [0b00000011] = .instr (.rxDataNextAnyLiberal 0x03) [] ∧
    decode (.rx .dataNext .strict) [0b00000011] = .instr (.rxDataNextCtrlStrict 0x03) [] ∧
    decode (.rx .dataNext .strict) [0b01000001] = .instr (.rxDataNextNonctrlStrict 0x41) [] ∧
    decode (.rx .dataNext .strict) [0b11111111] = .instr (.rxDataNextNonctrlStrict 0xFF) [] := by decide

theorem test_decode_types :
    decode .msgType [0b01001001] = .instr .msgI [] ∧
    decode .msgType [0b01010100] = .instr .msgT [] ∧
    decode .msgType [0b01010000] = .instr .msgP [] ∧
    decode .msgType [0b01010010] = .instr (.msgOther 0x52) [] ∧
    decode .msgType [0b01101001] = .instr (.msgOther 0x69) [] ∧
    decode .txType [0b01010010] = .instr .msgR [] := by decide

theorem test_decode_rejected :
    decode .txType [0b01010100] = .rejected (.notTransmitted 0x54) ∧ decode .msgType [] = .rejected .noByte := by decide

theorem test_table_words :
    decodeTableWord 8 0xFF = some .rxStartAttn ∧ decodeTableWord 8 0x02 = some .rxStartStx ∧
    decodeTableWord 8 0x00 = some (.rxStartOther 0x00) ∧ decodeTableWord 8 0x49 = some .msgI ∧
    decodeTableWord 8 0x54 = some .msgT ∧ decodeTableWord 8 0x50 = some .msgP ∧
    decodeTableWord 8 0x52 = some .msgR ∧ decodeTableWord 0 0 = none := by decide

/-- The very next step runs the word placed: FF begins a frame, 50 processes a frame, 52 transmits one. -/
theorem test_withFetchWord :
    seen (step (State.reset.withFetchWord 8 0xFF)) State.state = some .attnNext ∧
    seen (step (State.reset.withFetchWord 8 0x50)) (fun t => t.cnt.framesProcessed) = some 1 ∧
    seen (step (State.reset.withFetchWord 8 0x52)) State.tx =
      some [0xFF, 0xFF, 0x02, 0x46, 0x52, 0x00, 0x03] := by decide

/-! ## Vectors of spec/95_test_vectors.md, each one SERVICE call -/

/-- W1. -/
theorem test_W1 :
    seen (exec .service (holding [0xFF, 0xFF, 0x02, 0x46, 0x50, 0x03])) (fun t => (t.state, t.cnt, t.events)) =
      some (.start, { bytesSeen := 6, framesSeen := 1, framesProcessed := 1, parserErrors := 0, pollTicks := 1 }, []) := by
  decide

/-- W2. -/
theorem test_W2 :
    seen (exec .service (withOutputs [false, false, false] (holding [0xFF, 0xFF, 0x02, 0x46, 0x54, 0x05, 0x03])))
        (fun t => (t.obank, t.events)) =
      some (some [true, false, true],
        [.outputLine 0 true, .outputLine 2 true, .outputBulk 3 [true, false, true]]) := by decide

/-- V-P12c: under LIBERAL an escaped 41 is data. -/
theorem test_P12c :
    seen (exec .service (holding [0xFF, 0xFF, 0x02, 0x46, 0x54, 0x10, 0x41])) (fun t => (t.state, t.msg.payload)) =
      some (.maybeDataNext, [0x41]) := by decide

/-- V-P14: an FF before the preamble loses the frame. -/
theorem test_P14 :
    seen (exec .service (holding [0xFF, 0xFF, 0xFF, 0x02, 0x46, 0x50, 0x03])) (fun t => (t.state, t.cnt)) =
      some (.start, { bytesSeen := 7, framesSeen := 0, framesProcessed := 0, parserErrors := 5, pollTicks := 1 }) := by
  decide

/-- V-P15d: an escaped byte overflows. -/
theorem test_P15d :
    seen (exec .service (limited 2 (holding [0xFF, 0xFF, 0x02, 0x46, 0x54, 0x11, 0x22, 0x10, 0x03])))
      (fun t => (t.state, t.msg, t.cnt.parserErrors)) = some (.start, .cleared, 1) := by decide

/-- V-P16: under STRICT an escaped 41 is an error. -/
theorem test_P16 :
    seen (exec .service (strict (holding [0xFF, 0xFF, 0x02, 0x46, 0x54, 0x10, 0x41])))
      (fun t => (t.state, t.cnt.parserErrors)) = some (.start, 1) := by decide

/-- V-P10b: under APPEND an FF in the payload is data. -/
theorem test_P10b :
    seen (exec .service (appending (holding [0xFF, 0xFF, 0x02, 0x46, 0x54, 0x01, 0xFF])))
      (fun t => (t.state, t.msg.payload, t.cnt.framesSeen)) = some (.maybeDataNext, [0x01, 0xFF], 0) := by decide

/-- V-D2: the init callback gets the unescaped payload. -/
theorem test_D2 :
    seen (exec .msgI { inFrame 0x46 0x49 [0x02, 0x07] with cfg := { Config.reference with initPresent := true } })
      State.events = some [.initCall [0x02, 0x07] 2] := by decide

/-- V-D7: ten answers, and the frame that carries them, with the payload byte 02 escaped. -/
theorem test_D7 :
    seen (exec .msgP (withInputs 10 [true, false, false, true, false, false, false, false, false, true] State.reset))
        (fun t => (t.ibank, t.tx)) =
      some (some [true, false, false, true, false, false, false, false, false, true],
        [0xFF, 0xFF, 0x02, 0x46, 0x52, 0x09, 0x10, 0x02, 0x03]) := by decide

/-- V-D10: the lines are queried even where the response does not fit. -/
theorem test_D10 :
    seen (exec .msgP (limited 2 (withInputs 8 [true, false, true, false, false, false, false, false] State.reset)))
      (fun t => (t.ibank, t.tx, t.events.length)) =
      some (some [true, false, true, false, false, false, false, false], [], 8) := by decide

/-- V-C4, V-C6, V-C7. -/
theorem test_getbit :
    seen (exec (.codecGetbit [0x05] 1 8) State.reset) State.result = some (.bit false) ∧
    seen (exec (.codecGetbit [0x00, 0x80] 2 15) State.reset) State.result = some (.bit true) ∧
    seen (exec (.codecGetbit [0x00, 0x80] 1 15) State.reset) State.result = some (.bit false) := by decide

/-- V-C8, V-C9, V-C10. -/
theorem test_setbit :
    seen (exec (.codecSetbit [0x00] 1 7 true) State.reset) State.result = some (.bytes [0x80]) ∧
    seen (exec (.codecSetbit [0xFF] 1 0 false) State.reset) State.result = some (.bytes [0xFE]) ∧
    seen (exec (.codecSetbit [0x00] 1 8 true) State.reset) State.result = some (.bytes [0x00]) := by decide

/-- V-C16, V-C15. -/
theorem test_pack :
    seen (exec (.codecPack [false, true, false] 3 1) State.reset) State.result = some (.bytes [0x02]) ∧
    seen (exec (.codecPack [] 0 1) State.reset) State.result = some (.bytes [0x00]) := by decide

/-- V-C19. -/
theorem test_unpack :
    seen (exec (.codecUnpack [0xFF] 1 10) State.reset) State.result =
      some (.bits [true, true, true, true, true, true, true, true, false, false]) := by decide

/-- V-E2. -/
theorem test_E2 :
    seen (exec (.encode 0x52 [0x02, 0x03, 0x10]) State.reset) State.tx =
      some [0xFF, 0xFF, 0x02, 0x46, 0x52, 0x10, 0x02, 0x10, 0x03, 0x10, 0x10, 0x03] := by decide

/-- The table of `rlen` (95_test_vectors.md section 4). -/
theorem test_rlen :
    [0, 1, 7, 8, 9, 15, 16, 17, 567, 568].map (rlen .plusOne) = [1, 1, 1, 2, 2, 2, 3, 3, 71, 72] ∧
    [0, 1, 7, 8, 9, 15, 16, 17, 567, 568].map (rlen .ceil) = [0, 1, 1, 1, 2, 2, 2, 3, 71, 71] := by decide

/-- V-S3: a `none` ends the call. -/
theorem test_S3 :
    seen (exec .service { State.reset with rx := [some 0xFF, none, some 0xFF] }) (fun t => (t.state, t.rx)) =
      some (.attnNext, [some 0xFF]) := by decide

/-- The register view of the reset state (R22, R29). -/
theorem test_views :
    parserStateCode State.reset.state = 0 ∧ configView State.reset.cfg 1 = some (.number 70) ∧
    configView State.reset.cfg 2 = some (.number 72) ∧ configView State.reset.cfg 9 = none ∧
    counterView State.reset.cnt 4 = some 0 := by decide

/-! ## Witnesses: values that meet the hypotheses of each statement, clause by clause -/

theorem witness_EncodedInstrDecodes :
    (Instr.wf (.rxStartOther 0x55) = true ∧ encode (.rxStartOther 0x55) = some (.rx .start .liberal, [0x55])) ∧
    (Instr.wf (.rxDataNextCtrlStrict 0x03) = true ∧
      encode (.rxDataNextCtrlStrict 0x03) = some (.rx .dataNext .strict, [0x03])) ∧
    (Instr.wf .msgR = true ∧ encode .msgR = some (.txType, [0x52])) := by decide

theorem witness_DecodedByteEncodes :
    decode (.rx .stxNext .strict) [0x02, 0x46] = .instr .rxStxNextStx [0x46] ∧
    encode .rxStxNextStx = some (.rx .stxNext .liberal, [0x02]) ∧
    decode .txType [0x50] = .rejected (.notTransmitted 0x50) := by decide

theorem witness_StepRunsDecodedByte :
    (holding [0xFF, 0x02]).pending = [] ∧ (holding [0xFF, 0x02]).rx = some 0xFF :: [some 0x02] ∧
    decode (.rx .start .liberal) [0xFF] = .instr .rxStartAttn [] := by decide

theorem witness_StepWithoutByte :
    (planned .service State.reset).pending = .service :: [] ∧ (State.reset.pending = [] ∧ State.reset.rx = []) ∧
    ({ State.reset with rx := [none, some 0x55] } : State).rx = none :: [some 0x55] := by decide

theorem witness_DataCellsAppend :
    State.reset.msg.length < State.reset.cfg.maxMsgLen ∧
    (limited 3 (inFrame 0x46 0x54 [0x11, 0x22])).msg.length < (limited 3 (inFrame 0x46 0x54 [0x11, 0x22])).cfg.maxMsgLen ∧
    (appending State.reset).cfg.attnInData = .append := by decide

theorem witness_OverflowIsFramingError :
    (limited 2 (inFrame 0x46 0x54 [0x11, 0x22])).cfg.maxMsgLen ≤ (limited 2 (inFrame 0x46 0x54 [0x11, 0x22])).msg.length ∧
    (appending (limited 2 (inFrame 0x46 0x54 [0x11, 0x22]))).cfg.attnInData = .append := by decide

theorem witness_FrameEndCellsDispatch :
    State.reset.cfg.attnInData = .dispatch ∧ State.reset.breach = none := by decide

theorem witness_OutOfPlaceBytesAreErrors :
    ((at_ .start).state = .start ∧ (0x02 : Byte) ≠ 0xFF) ∧ ((at_ .attnNext).state = .attnNext ∧ (0x02 : Byte) ≠ 0xFF) ∧
    ((at_ .stxNext).state = .stxNext ∧ (0xFF : Byte) ≠ 0x02) := by decide

theorem witness_ExpectedBytesAdvance :
    (at_ .attnNext).state = .attnNext ∧ (at_ .stxNext).state = .stxNext ∧ (at_ .addrNext).state = .addrNext ∧
    (at_ .typeNext).state = .typeNext ∧ (at_ .maybeDataNext).state = .maybeDataNext := by decide

theorem witness_DataBytesStored :
    ((inFrame 0x46 0x54 []).state = .maybeDataNext ∧ (0x02 : Byte) ≠ 0xFF ∧ (0x02 : Byte) ≠ 0x03 ∧ (0x02 : Byte) ≠ 0x10 ∧
      (inFrame 0x46 0x54 []).msg.length < (inFrame 0x46 0x54 []).cfg.maxMsgLen) ∧
    ((at_ .dataNext).state = .dataNext ∧ (at_ .dataNext).cfg.escapePolicy = .liberal ∧
      ¬ (limited 0 (at_ .dataNext)).msg.length < (limited 0 (at_ .dataNext)).cfg.maxMsgLen) := by decide

theorem witness_EtxEndsFrame :
    (inFrame 0x46 0x50 []).breach = none ∧ (inFrame 0x46 0x50 []).state = .maybeDataNext ∧
    nodeAddress (inFrame 0x46 0x50 []).cfg = 0x46 := by decide

theorem witness_ErrorsArePrecise :
    seen (feed 0x55 State.reset) (fun t => t.cnt.parserErrors) = some 1 ∧ State.reset.cnt.parserErrors = 0 := by decide

theorem witness_RecoveryIsNextPreamble :
    seen (feed 0x02 (at_ .attnNext)) (fun t => t.cnt.parserErrors) = some 1 ∧ (at_ .attnNext).cnt.parserErrors = 0 ∧
    (at_ .start).state = .start := by decide

theorem witness_InitHandlerPassesPayload :
    State.reset.breach = none ∧ State.reset.cfg.initPresent = false ∧
    ({ Config.reference with initPresent := true } : Config).initPresent = true := by decide

theorem witness_InitAnswersInert :
    seen (exec .msgI { State.reset with cfg := { Config.reference with initPresent := true } })
      (fun t => t.events.length) = some 1 := by decide

theorem witness_ApplyOutputsResult :
    (withOutputs [false] State.reset).breach = none ∧ (withOutputs [false] State.reset).obank = some [false] ∧
    State.reset.obank = none := by decide

theorem witness_ApplyOutputsIdempotent :
    seen (exec .msgT (withOutputs [false] (inFrame 0x46 0x54 [0x01]))) State.obank = some (some [true]) := by decide

theorem witness_PollSamplesAndResponds :
    (withInputs 0 [] State.reset).breach = none ∧ (withInputs 0 [] State.reset).ibank = some [] ∧
    State.reset.ibank = none := by decide

theorem witness_PollResponseContent :
    (withInputs 2 [true] (limited 2 State.reset)).breach = none ∧
    (withInputs 2 [true] (limited 2 State.reset)).ibank = some [false, false] ∧
    rlen .plusOne [false, false].length < 2 := by decide

theorem witness_PollIgnoresMessage :
    seen (exec .msgP (withInputs 1 [true] State.reset)) State.ibank = some (some [true]) := by decide

theorem witness_TransmitResponseResult :
    (withInputs 8 [] State.reset).breach = none ∧
    ((withInputs 8 [] State.reset).ibank = some (List.replicate 8 false) ∧ rlen .plusOne 8 < 3) ∧
    ((limited 2 (withInputs 8 [] State.reset)).cfg.maxMsgLen ≤ rlen .plusOne 8) ∧ State.reset.ibank = none := by decide

theorem witness_UnknownTypeIgnored :
    (inFrame 0x46 0x52 [0x01]).msg.dest = nodeAddress (inFrame 0x46 0x52 [0x01]).cfg ∧
    (inFrame 0x46 0x52 [0x01]).msg.mtype ≠ 0x49 ∧ (inFrame 0x46 0x52 [0x01]).msg.mtype ≠ 0x54 ∧
    (inFrame 0x46 0x52 [0x01]).msg.mtype ≠ 0x50 := by decide

theorem witness_DispatchCountsAndRoutes :
    (inFrame 0x47 0x50 []).msg.dest ≠ nodeAddress (inFrame 0x47 0x50 []).cfg ∧
    (inFrame 0x46 0x54 []).msg.dest = nodeAddress (inFrame 0x46 0x54 []).cfg ∧
    decode .msgType [(inFrame 0x46 0x54 []).msg.mtype] = .instr .msgT [] := by decide

theorem witness_MismatchAndUnknownTypeNoErrors :
    (inFrame 0x47 0x50 []).state = .maybeDataNext ∧ (inFrame 0x47 0x50 []).cfg.attnInData = .dispatch ∧
    (inFrame 0x47 0x50 []).msg.dest ≠ nodeAddress (inFrame 0x47 0x50 []).cfg ∧
    ((inFrame 0x46 0x51 []).msg.mtype ≠ 0x49 ∧ (inFrame 0x46 0x51 []).msg.mtype ≠ 0x54 ∧
      (inFrame 0x46 0x51 []).msg.mtype ≠ 0x50) := by decide

theorem witness_OnlyPollTransmits :
    seen (feed 0x03 (withInputs 0 [] (inFrame 0x46 0x50 []))) (fun t => t.tx.length) = some 7 ∧
    (withInputs 0 [] (inFrame 0x46 0x50 [])).tx = [] := by decide

theorem witness_BanksChangeOnlyByTheirFrames :
    seen (feed 0x03 (withOutputs [false] (inFrame 0x46 0x54 [0x01]))) State.obank = some (some [true]) ∧
    seen (feed 0x03 (withInputs 1 [true] (inFrame 0x46 0x50 []))) (fun t => (t.ibank, t.answers.lines)) =
      some (some [true], []) ∧
    seen (feed 0x03 (limited 1 (withInputs 1 [] (inFrame 0x46 0x50 [])))) (fun t => t.answers.draws) = some 1 := by decide

theorem witness_GetBitReads :
    1 ≤ [(0x05 : Byte)].length ∧ 1 ≤ 8 / 8 ∧ 7 / 8 < 1 ∧ [(0x05 : Byte)][7 / 8]? = some 0x05 := by decide

theorem witness_SetBitWrites :
    1 ≤ [(0x05 : Byte)].length ∧ 1 ≤ 8 / 8 ∧ 7 / 8 < 1 ∧ [(0x05 : Byte)][7 / 8]? = some 0x05 := by decide

theorem witness_PackAndUnpackResults :
    ([false, true].length = 2 ∧ 2 ≤ 8 * 1 ∧ [false, true][1]? = some true) ∧ (List.replicate 8 true).length ≤ 8 * 1 ∧
    1 ≤ [(0xFF : Byte)].length := by decide

theorem witness_SetBitLaws :
    7 < 8 * [(0x05 : Byte)].length ∧ (6 : Nat) ≠ 7 ∧ 8 * [(0x05 : Byte)].length ≤ 8 := by decide

theorem witness_PackUnpackInverse :
    (List.replicate 8 true).length ≤ 8 * 1 ∧ [(0xFF : Byte), 0xFF].length = rlen .plusOne 8 ∧
    [(0xFF : Byte)].length = rlen .ceil 8 := by decide

theorem witness_EncodeEmitsFrame : State.reset.breach = none := by decide

theorem witness_FrameShape :
    ((escPayload [0x10, 0x03])[0]? = some 0x10 ∧ isEscaped 0x10 = true ∧ escapeDleAt (escPayload [0x10, 0x03]) 0 = true) ∧
    ((escPayload [0x10, 0x03])[1]? = some 0x10 ∧ escapeDleAt (escPayload [0x10, 0x03]) 1 = false) ∧
    (escPayload [0x10, 0x03])[3]? = some 0x03 ∧ escapeDleAt (escPayload [0x10, 0x03]) 2 = true := by decide

/-- The shape clause refuses an unescaped 02 behind an escaped 10. -/
theorem test_escapeDleAt : escapeDleAt [0x10, 0x10, 0x02] 0 = true ∧ escapeDleAt [0x10, 0x10, 0x02] 1 = false ∧
    escapeDleAt [0x10, 0x10, 0x02] 2 = false := by decide

theorem witness_EncodedFrameRoundTrips :
    (limited 2 State.reset).state = .start ∧ [(0x02 : Byte), 0x10].length ≤ (limited 2 State.reset).cfg.maxMsgLen ∧
    (0xFF : Byte) ∉ [(0x02 : Byte), 0x10] ∧ (appending State.reset).cfg.attnInData = .append := by decide

theorem witness_UnescapedAttnCutsFrame :
    (limited 1 State.reset).state = .start ∧ (limited 1 State.reset).cfg.attnInData = .dispatch ∧
    (0xFF : Byte) ∉ [(0x02 : Byte)] ∧ [(0x02 : Byte)].length ≤ (limited 1 State.reset).cfg.maxMsgLen := by decide

theorem witness_HostEscapedFrameAccepted :
    (limited 1 State.reset).state = .start ∧ (limited 1 State.reset).cfg.escapePolicy = .liberal ∧
    [(0xFF : Byte)].length ≤ (limited 1 State.reset).cfg.maxMsgLen := by decide

theorem witness_GarbageByteCostsOneError :
    (limited 3 State.reset).state = .start ∧ (0x02 : Byte) ≠ 0xFF ∧
    [((0xFF : Byte), true), (0x03, true), (0x41, false)].length ≤ (limited 3 State.reset).cfg.maxMsgLen ∧
    ([((0xFF : Byte), true), (0x03, true), (0x41, false)].all fun x =>
      decide (takenAsData (limited 3 State.reset).cfg x.1 x.2)) = true ∧
    takenAsData (appending (strict State.reset)).cfg 0xFF false ∧ takenAsData (strict State.reset).cfg 0x10 true := by
  decide

theorem witness_AttnGarbageLosesFrame :
    State.reset.state = .start ∧ (0xFF : Byte) ∉ [(0x46 : Byte), 0x50, 0x03] := by decide

theorem witness_OverflowAbandonsFrame :
    (limited 1 (inFrame 0x46 0x54 [0x11])).state = .maybeDataNext ∧
    (limited 1 (inFrame 0x46 0x54 [0x11])).cfg.maxMsgLen ≤ (limited 1 (inFrame 0x46 0x54 [0x11])).msg.length ∧
    (0xFF : Byte) ∉ [(0x03 : Byte)] ∧ ((0x02 : Byte) ≠ 0x03 ∧ (0x02 : Byte) ≠ 0x10 ∧ (0x02 : Byte) ≠ 0xFF) ∧
    (appending (limited 1 (inFrame 0x46 0x54 [0x11]))).cfg.attnInData = .append ∧
    (strict (limited 1 (inFrame 0x46 0x54 [0x11]))).cfg.escapePolicy = .strict := by decide

theorem witness_FlushForcesStart :
    State.reset.breach = none ∧ seen (feedAll [0x03, 0x03, 0x03] (at_ .addrNext)) State.state = some .start := by decide

theorem witness_ServiceFeedsAvailableBytes :
    (holding [0xFF]).rx = [(0xFF : Byte)].map some ∧
    ({ State.reset with rx := [some 0xFF, none, some 0x55] } : State).rx =
      [(0xFF : Byte)].map some ++ none :: [some 0x55] := by decide

theorem witness_ServiceIsIteratedStep :
    (holding [0xFF, 0xFF]).pending = [] ∧ (holding [0xFF, 0xFF]).rx = [(0xFF : Byte), 0xFF].map some := by decide

theorem witness_GroupingIrrelevant : (holding [0xFF]).rx = [(0xFF : Byte)].map some := by decide

theorem witness_EveryInstructionCompletes :
    State.reset.breach = none ∧ State.reset.pending.head? = none ∧
    (planned .hardwareReset State.reset).pending.head? = some .hardwareReset := by decide

theorem witness_BreachStopsAtItsCall :
    (withOutputs [false] (inFrame 0x46 0x54 [0x01])).breach = none ∧
    seen (exec .msgT (withOutputs [false] (inFrame 0x46 0x54 [0x01]))) (fun t => t.events.length) = some 2 := by decide

/-- The reset state meets the invariant (as a Bool for each of its fields) and steps. -/
theorem witness_StepKeepsInvariant : State.reset.Inv ∧ seen (step State.reset) (fun t => t.cnt.pollTicks) = some 1 :=
  ⟨⟨by decide, by decide, by decide, by decide, by decide, by decide, by decide, by decide⟩, by decide⟩

theorem witness_FrozenConfigurationKept :
    seen (step { holding [0xFF] with frozen := true }) State.frozen = some true ∧ (holding [0xFF]).pending = [] := by decide

theorem witness_CountersAndEventsOnlyGrow :
    (holding [0xFF]).pending.head? ≠ some .hardwareReset ∧
    seen (step (holding [0xFF])) (fun t => t.cnt.bytesSeen) = some 1 := by decide

theorem witness_ConstructInitialState :
    (127 < 128 ∧ 1 ≤ 1) ∧ 128 ≤ 128 ∧ (0 < 128 ∧ (0 : Nat) = 0) ∧
    seen (construct 127 1 .strict .append .ceil) (fun t => t.cfg.localId.val) = some 127 := by decide

theorem witness_RegistrationRules :
    (planned .registerInit State.reset).pending = .registerInit :: [] ∧
    (planned (.registerInput 0) State.reset).pending = .registerInput 0 :: [] ∧
    (planned (.registerOutput 3) State.reset).pending = .registerOutput 3 :: [] ∧
    State.reset.cfg.initPresent = false ∧ State.reset.cfg.inputCount = none ∧ State.reset.cfg.outputCount = none ∧
    State.reset.frozen = false ∧ ({ State.reset with frozen := true } : State).frozen = true ∧
    ({ Config.reference with initPresent := true } : Config).initPresent = true ∧
    (withInputs 3 [] State.reset).cfg.inputCount ≠ none ∧ (withOutputs [true] State.reset).cfg.outputCount ≠ none := by
  decide

theorem witness_HardwareResetRestores :
    (planned .hardwareReset State.reset).pending = .hardwareReset :: [] := by decide

theorem witness_RegisterViewValues : parserStateOfCode 7 = none ∧ parserStateOfCode 6 = some .dataNext ∧
    configView State.reset.cfg 9 = none ∧ counterView State.reset.cnt 5 = none := by decide

end Sys2Proof.Tests
end

section
/-!
PROOFS. The family of 30_encoding.md: the byte classes.
-/

namespace Sys2Proof.Machine

/-- Settles O1, by the five cases of the class function (R72): in each the byte or its exclusions are known, and with
them every one of the five equivalences. -/
theorem byteClassesPartition : Obligations.ByteClassesPartition := by
  intro b
  obtain ⟨rfl, hclass⟩ | ⟨rfl, hclass⟩ | ⟨rfl, hclass⟩ | ⟨rfl, hclass⟩ | ⟨⟨hattn, hstx, hetx, hdle⟩, hclass⟩ :=
    byteClass_cases b
  case inr.inr.inr.inr =>
    simp only [hclass, hattn, hstx, hetx, hdle, reduceCtorEq, ne_eq, not_false_eq_true, and_self]
  all_goals simp only [hclass]; decide

end Sys2Proof.Machine
end


section
/-!
PROOFS. The family of 40_frame_parser.md: the cells of an expected byte, which move the parser on and emit nothing.
-/

namespace Sys2Proof.Machine

/-- `feed` through the row a byte selects (R100), where the row's effect emits nothing. -/
theorem feed_of_decodeRx {b : Byte} {s : State} {i : Instr} (hi : decodeRx s.cfg.escapePolicy s.state b = i)
    (he : (effect i s).events = s.events) : feed b s = .next (effect i s) := by
  subst hi
  exact feed_of_silent b s he

section
variable {s : State}

/-- The second preamble byte (R103). -/
theorem feed_attnNext_attn (h : s.state = .attnNext) : feed 0xFF s = .next (s.countByte.goto .stxNext) :=
  feed_of_decodeRx (i := .rxAttnNextAttn) (by rw [h]; rfl) rfl

/-- The end of the preamble (R105). -/
theorem feed_stxNext_stx (h : s.state = .stxNext) : feed 0x02 s = .next (s.countByte.goto .addrNext) :=
  feed_of_decodeRx (i := .rxStxNextStx) (by rw [h]; rfl) rfl

/-- The destination, of any byte class (R107). -/
theorem feed_addrNext (b : Byte) (h : s.state = .addrNext) :
    feed b s = .next { s.countByte with msg := { s.msg with dest := b }, state := .typeNext } :=
  feed_of_decodeRx (i := .rxAddrNextAny b) (by rw [h]; rfl) rfl

/-- The message type, of any byte class (R108). -/
theorem feed_typeNext (b : Byte) (h : s.state = .typeNext) :
    feed b s = .next { s.countByte with msg := { s.msg with mtype := b }, state := .maybeDataNext } :=
  feed_of_decodeRx (i := .rxTypeNextAny b) (by rw [h]; rfl) rfl

/-- The start of an escape, with or without room for the escaped byte (R113). -/
theorem feed_maybeDataNext_dle (h : s.state = .maybeDataNext) : feed 0x10 s = .next (s.countByte.goto .dataNext) :=
  feed_of_decodeRx (i := .rxMaybeDataNextDle) (by rw [h]; rfl) rfl

end

/-- Settles O16, by the five cells in turn: each cell's equation gives the successor, whose events and counters but for
the byte's own are those of `s`, and the state `s` is in selects the one clause that speaks of it. -/
theorem expectedBytesAdvance : Obligations.ExpectedBytesAdvance := by
  rintro s b (⟨h, rfl⟩ | ⟨h, rfl⟩ | h | h | ⟨h, rfl⟩)
  case inl => exact ⟨_, feed_attnNext_attn h, rfl, rfl, rfl, rfl, by simp [h]⟩
  case inr.inl => exact ⟨_, feed_stxNext_stx h, rfl, rfl, rfl, rfl, by simp [h]⟩
  case inr.inr.inl => exact ⟨_, feed_addrNext b h, rfl, rfl, rfl, rfl, by simp [h]⟩
  case inr.inr.inr.inl => exact ⟨_, feed_typeNext b h, rfl, rfl, rfl, rfl, by simp [h]⟩
  case inr.inr.inr.inr => exact ⟨_, feed_maybeDataNext_dle h, rfl, rfl, rfl, rfl, by simp [h]⟩

end Sys2Proof.Machine
end


section
/-!
PROOFS. The family of 43_frame_encoder.md: the bytes ENCODE transmits.
-/

namespace Sys2Proof.Machine

/-- The escaped payload with the three escaped byte values written out (R186). -/
theorem escPayload_eq_flatMap (p : List Byte) :
    escPayload p = p.flatMap (fun x => if x = 0x02 ∨ x = 0x03 ∨ x = 0x10 then [0x10, x] else [x]) := rfl

/-- A frame with the values of its control bytes written out (R73, R186). -/
theorem frameBytes_eq (d t : Byte) (p : List Byte) :
    frameBytes d t p = [0xFF, 0xFF, 0x02, d, t] ++
      p.flatMap (fun x => if x = 0x02 ∨ x = 0x03 ∨ x = 0x10 then [0x10, x] else [x]) ++ [0x03] := by
  rw [← escPayload_eq_flatMap]; rfl

/-- ENCODE completes and only appends the frame's transmissions (R185), when the environment keeps its duties (R206). -/
theorem exec_encode {s : State} (t : Byte) (p : List Byte) (h : s.breach = none) :
    exec (.encode t p) s =
      .next { s with events := s.events ++ (frameBytes (nodeAddress s.cfg) t p).map Event.txByte } :=
  calc exec (.encode t p) s
    _ = settle s (s.encodeFrame t p) := exec_eq_settle (by simp) s
    _ = .next (s.encodeFrame t p) := settle_of_breach_none h
    _ = _ := by rw [encodeFrame_eq]

/-- Settles O39: by `exec_encode` only the frame's transmissions are appended, and `frameBytes_eq` writes them out. -/
theorem encodeEmitsFrame : Obligations.EncodeEmitsFrame := by
  intro s t p h
  rw [exec_encode t p h, frameBytes_eq]

end Sys2Proof.Machine
end

section
/-!
PROOFS. The family of 30_encoding.md: decoding and encoding are inverse.
-/

namespace Sys2Proof.Machine

/-- A received byte is one instruction, whatever follows it (R70). -/
theorem decode_rx_cons (st : ParserState) (policy : EscapePolicy) (b : Byte) (rest : List Byte) :
    decode (.rx st policy) (b :: rest) = .instr (decodeRx policy st b) rest := rfl

/-- The table's "excludes" lists are the class `OTHER` (R72). -/
theorem byteClass_of_isOtherByte {b : Byte} (h : isOtherByte b = true) : byteClass b = .other := by
  simp only [isOtherByte, Bool.and_eq_true, bne_iff_ne, ne_eq] at h
  obtain ⟨⟨⟨hattn, hstx⟩, hetx⟩, hdle⟩ := h
  exact byteClass_of_other hattn hstx hdle hetx

/-- A byte of class `OTHER` may not be escaped under `STRICT`. -/
theorem not_isEscaped_of_ne {b : Byte} (h : b ≠ 0x02 ∧ b ≠ 0x03 ∧ b ≠ 0x10) : ¬ isEscaped b = true := by
  rw [isEscaped_iff]
  tauto

theorem isOtherByte_of_ne {b : Byte} (h : b ≠ 0xFF ∧ b ≠ 0x02 ∧ b ≠ 0x03 ∧ b ≠ 0x10) : isOtherByte b = true := by
  simpa [isOtherByte, and_assoc] using h

/-- Under `STRICT` an escaped byte selects by whether it may be escaped (R115). -/
theorem decodeRx_strict_dataNext (b : Byte) :
    decodeRx .strict .dataNext b =
      if isEscaped b = true then .rxDataNextCtrlStrict b else .rxDataNextNonctrlStrict b := by
  obtain ⟨rfl, hclass⟩ | ⟨rfl, hclass⟩ | ⟨rfl, hclass⟩ | ⟨rfl, hclass⟩ | ⟨⟨-, hne⟩, hclass⟩ := byteClass_cases b
  case inr.inr.inr.inr =>
    rw [if_neg (not_isEscaped_of_ne hne)]
    simp only [decodeRx, hclass]
  all_goals rfl

/-- The tags R80 does not name select MSG_OTHER (R141). -/
theorem decodeTag_of_isOtherTag {t : Byte} (h : isOtherTag t = true) : decodeTag t = .msgOther t := by
  simp only [isOtherTag, Bool.and_eq_true, bne_iff_ne, ne_eq] at h
  obtain ⟨⟨hI, hT⟩, hP⟩ := h
  rw [decodeTag, tagI, tagT, tagP, if_neg hI, if_neg hT, if_neg hP]

/-- Settles O3, by the rows of the table: an encoding is one byte at its site, which the decoder reads as the row, for a
row of many bytes because well-formedness puts the byte in the row's class. -/
theorem encodedInstrDecodes : Obligations.EncodedInstrDecodes := by
  intro i site ws rest hwf henc
  cases i <;> cases henc
  case rxStartOther b | rxAttnNextOther b | rxStxNextOther b | rxMaybeDataNextOther b =>
    simp only [List.cons_append, List.nil_append, decode_rx_cons, decodeRx, byteClass_of_isOtherByte hwf]
  case rxDataNextCtrlStrict b =>
    simp only [List.cons_append, List.nil_append, decode_rx_cons, decodeRx_strict_dataNext]
    rw [if_pos (show isEscaped b = true from hwf)]
  case rxDataNextNonctrlStrict b =>
    have hb : ¬ isEscaped b = true := by simpa [Instr.wf] using (show (!isEscaped b) = true from hwf)
    simp only [List.cons_append, List.nil_append, decode_rx_cons, decodeRx_strict_dataNext]
    rw [if_neg hb]
  case msgOther t => simp only [List.cons_append, List.nil_append, decode, decodeTag_of_isOtherTag hwf]
  all_goals rfl

/-- The row a received byte selects admits that byte. -/
theorem decodeRx_wf (policy : EscapePolicy) (st : ParserState) (b : Byte) : (decodeRx policy st b).wf = true := by
  obtain ⟨rfl, hclass⟩ | ⟨rfl, hclass⟩ | ⟨rfl, hclass⟩ | ⟨rfl, hclass⟩ | ⟨hne, hclass⟩ := byteClass_cases b
  case inr.inr.inr.inr =>
    have hesc : isStrictEscapable b = false := Bool.eq_false_iff.mpr (not_isEscaped_of_ne hne.2)
    cases st <;> cases policy <;> simp [decodeRx, hclass, Instr.wf, isOtherByte_of_ne hne, hesc]
  all_goals cases st <;> cases policy <;> rfl

/-- The row a received byte selects has that byte, read in that parser state; only in `DATA_NEXT` does the row name the
escape policy (R114, R115). -/
theorem encode_decodeRx (policy : EscapePolicy) (st : ParserState) (b : Byte) :
    encode (decodeRx policy st b) = some (.rx st (if st = .dataNext then policy else .liberal), [b]) := by
  obtain ⟨rfl, hclass⟩ | ⟨rfl, hclass⟩ | ⟨rfl, hclass⟩ | ⟨rfl, hclass⟩ | ⟨hne, hclass⟩ := byteClass_cases b
  case inr.inr.inr.inr => cases st <;> cases policy <;> simp [decodeRx, hclass, encode]
  all_goals cases st <;> cases policy <;> rfl

/-- The tag rows, with the byte each is selected by (R80, R141). -/
theorem decodeTag_wf_encode (t : Byte) : (decodeTag t).wf = true ∧ encode (decodeTag t) = some (.msgType, [t]) := by
  unfold decodeTag
  by_cases hI : t = tagI
  · rw [if_pos hI]; subst hI; exact ⟨rfl, rfl⟩
  by_cases hT : t = tagT
  · rw [if_neg hI, if_pos hT]; subst hT; exact ⟨rfl, rfl⟩
  by_cases hP : t = tagP
  · rw [if_neg hI, if_neg hT, if_pos hP]; subst hP; exact ⟨rfl, rfl⟩
  · rw [if_neg hI, if_neg hT, if_neg hP]
    refine ⟨?_, rfl⟩
    simpa [Instr.wf, isOtherTag, tagI, tagT, tagP, and_assoc] using And.intro hI (And.intro hT hP)

/-- The block transmits only `'R'` (R148). -/
theorem decode_txType_cons (t : Byte) (rest : List Byte) :
    decode .txType (t :: rest) = if t = 0x52 then .instr .msgR rest else .rejected (.notTransmitted t) := by
  by_cases h : t = tagR
  · subst h; rfl
  · rw [if_neg (show ¬ t = 0x52 from h)]
    simp only [decode, decodeTxTag, if_neg h]

/-- Settles O4, by the three places a byte is read: the row it selects there is well-formed and has that byte, and only
a transmitted type other than `'R'` selects none. -/
theorem decodedByteEncodes : Obligations.DecodedByteEncodes := by
  intro site b rest
  cases site with
  | rx st policy =>
    refine ⟨?_, by simp [decode_rx_cons], rfl⟩
    intro i rest' h
    rw [decode_rx_cons] at h
    cases h
    refine ⟨rfl, decodeRx_wf policy st b, _, encode_decodeRx policy st b, ?_⟩
    by_cases hst : st = .dataNext
    · exact .inl (by rw [if_pos hst])
    · exact .inr ⟨st, policy, hst, rfl, by rw [if_neg hst]⟩
  | msgType =>
    refine ⟨?_, by simp [decode], rfl⟩
    intro i rest' h
    cases h
    obtain ⟨hwf, henc⟩ := decodeTag_wf_encode b
    exact ⟨rfl, hwf, _, henc, .inl rfl⟩
  | txType =>
    rw [decode_txType_cons]
    by_cases hb : b = 0x52
    · subst hb
      refine ⟨?_, by simp, rfl⟩
      intro i rest' h
      cases h
      exact ⟨rfl, rfl, _, rfl, .inl rfl⟩
    · rw [if_neg hb]
      refine ⟨fun i rest' h => (by cases h), fun e => ⟨fun h => ?_, fun ⟨_, _, he⟩ => by rw [he]⟩, rfl⟩
      cases h
      exact ⟨rfl, hb, rfl⟩

/-- Settles O2: the ten words evaluate to their rows. -/
theorem rowWordsDecode : Obligations.RowWordsDecode := by
  unfold Obligations.RowWordsDecode
  decide

end Sys2Proof.Machine
end

section
/-!
PROOFS. The family of 42_bit_codec.md: what the codec operations deliver, and the laws of R174.
-/

namespace Sys2Proof.Machine

/-- A byte of a buffer that the storage has reads as it is stored (R17). -/
theorem memRead_of_getElem? {buf : List Byte} {a : Nat} {b : Byte} (h : buf[a]? = some b) : memRead buf a = b := by
  rw [memRead, List.getD_eq_getElem?_getD, h]
  rfl

/-- A line of a bank reads as it is held (R17). -/
theorem bitRead_of_getElem? {bank : List Bool} {i : Nat} {v : Bool} (h : bank[i]? = some v) : bitRead bank i = v := by
  rw [bitRead, List.getD_eq_getElem?_getD, h]
  rfl

/-- `setBit` in range is a write of one byte (R171). -/
theorem setBit_eq_set {buf : List Byte} {len k : Nat} {old : Byte} (v : Bool) (hk : k / 8 < len)
    (hold : buf[k / 8]? = some old) :
    setBit buf len k v = buf.set (k / 8) (if v then old ||| bitMask k else old &&& ~~~(bitMask k)) := by
  have hin : ¬ byteIndex k ≥ len := Nat.not_le.mpr hk
  rw [setBit, if_neg hin, byteIndex, memRead_of_getElem? hold]
  rfl

/-- Settles O34: `getBit_eq` reads the bit of its byte, and beyond the buffer `getBit` is `false`. -/
theorem getBitReads : Obligations.GetBitReads := by
  intro s buf len k _
  refine ⟨fun hbeyond => ?_, fun b hk hb => ?_⟩
  · show Host.Outcome.next { s with result := .bit (getBit buf len k) } = _
    rw [getBit_beyond (by omega)]
  · show Host.Outcome.next { s with result := .bit (getBit buf len k) } = _
    rw [getBit_eq, memRead_of_getElem? hb, decide_eq_true hk, Bool.true_and]

/-- Settles O35: in range `setBit` is the one byte's write, and beyond the buffer nothing. -/
theorem setBitWrites : Obligations.SetBitWrites := by
  intro s buf len k v _
  refine ⟨fun hbeyond => ?_, fun old hk hold => ?_⟩
  · show Host.Outcome.next { s with result := .bytes (setBit buf len k v) } = _
    rw [setBit_beyond (by omega)]
  · show Host.Outcome.next { s with result := .bytes (setBit buf len k v) } = _
    rw [setBit_eq_set v hk hold]
    rfl

/-- Settles O36: the lengths and the single bits of a packed buffer and of an unpacked bank. -/
theorem packAndUnpackResults : Obligations.PackAndUnpackResults := by
  intro s bank buf n len
  refine ⟨fun hn hfit => ⟨pack bank n len, rfl, length_pack bank n len, fun i v hi => ?_, fun i hi => ?_⟩,
    fun _ => ⟨unpack buf len n, rfl, length_unpack buf len n, fun i hi => ?_⟩⟩
  · have hlt : i < n := hn ▸ (List.getElem?_eq_some_iff.mp hi).1
    rw [getBit_pack hfit, bitRead_of_getElem? hi, decide_eq_true hlt, Bool.true_and]
  · rw [getBit_pack hfit, decide_eq_false (Nat.not_lt.mpr hi), Bool.false_and]
  · simp [unpack, hi]

/-- Settles O37: `getBit_setBit` decides the reads in range. -/
theorem setBitLaws : Obligations.SetBitLaws := by
  intro buf k j v
  refine ⟨fun hk => ?_, fun hk hne => ?_, fun hk => ⟨getBit_beyond hk, setBit_beyond hk⟩⟩
  · rw [getBit_setBit le_rfl hk, if_pos rfl]
  · rw [getBit_setBit le_rfl hk, if_neg hne]

/-- Law 4 of R174: unpacking a packed bank that fits gives the bank. -/
theorem unpack_pack {bank : List Bool} {len : Nat} (h : bank.length ≤ 8 * len) :
    unpack (pack bank bank.length len) len bank.length = bank := by
  apply List.ext_getElem (length_unpack _ _ _)
  intro i hi hi'
  have hbit : getBit (pack bank bank.length len) len i = bank[i] := by
    rw [getBit_pack h, decide_eq_true hi', Bool.true_and, bitRead_of_getElem? (List.getElem?_eq_getElem hi')]
  simpa [unpack] using hbit

/-- Law 5 of R174, bit by bit: packing what was unpacked keeps the lines and clears the padding. -/
theorem getBit_pack_unpack {buf : List Byte} {len n : Nat} (h : n ≤ 8 * len) (i : Nat) :
    getBit (pack (unpack buf len n) n len) len i = if i < n then getBit buf len i else false := by
  rw [getBit_pack h]
  by_cases hi : i < n
  · rw [if_pos hi, decide_eq_true hi, Bool.true_and, bitRead_unpack hi]
  · rw [if_neg hi, decide_eq_false hi, Bool.false_and]

/-- Settles O38, by laws 4 and 5; a buffer of a response length holds every line. -/
theorem packUnpackInverse : Obligations.PackUnpackInverse := by
  refine ⟨fun bank len h => unpack_pack h, fun policy buf n hlen => ⟨length_pack _ _ _, fun i => ?_⟩⟩
  exact getBit_pack_unpack (hlen ▸ le_rlen policy n) i

end Sys2Proof.Machine
end

section
/-!
PROOFS. The family of 41_dispatcher.md: what each handler does, and which handler a dispatched frame runs.
-/

namespace Sys2Proof.Machine

/-- An instruction that calls the environment, run in one that keeps its duties, answers its effect. -/
theorem exec_of_breach_none {i : Instr} (hi : i ≠ .service) {s : State} (h : s.breach = none) :
    exec i s = .next (effect i s) := by
  rw [exec_eq_settle hi, settle_of_breach_none h]

/-- An instruction that makes no call answers its effect, whatever the environment does. -/
theorem exec_of_silent {i : Instr} (hi : i ≠ .service) {s : State} (h : (effect i s).events = s.events) :
    exec i s = .next (effect i s) := by
  rw [exec_eq_settle hi, settle_silent h (effect_breach i s)]

/-- Settles O21: MSG_I is `init_handler` on the message in flight. -/
theorem initHandlerPassesPayload : Obligations.InitHandlerPassesPayload := by
  intro s hb
  have h : exec .msgI s = .next (s.initHandler s.msg) := exec_of_breach_none (by simp) hb
  rw [h, initHandler_eq]
  exact ⟨fun hp => by rw [if_pos hp], fun hp => by rw [hp]; rfl⟩

/-- Settles O23, by the closed form of the `'T'` loop. -/
theorem applyOutputsResult : Obligations.ApplyOutputsResult := by
  intro s hb
  have h : exec .msgT s = .next (s.applyOutputs s.msg) := exec_of_breach_none (by simp) hb
  refine ⟨fun bank hbank => ?_, fun hnone => ?_⟩
  · rw [h, applyOutputs_eq _ hbank]
    rfl
  · rw [h, applyOutputs_none _ hnone]

/-- A bank that holds the payload's bits has nothing to report. -/
theorem applyEvents_unpack (m : InFlightMessage) (n : Nat) : applyEvents m (unpack m.payload m.length n) = [] := by
  have hsame : changeEvents m (unpack m.payload m.length n) = [] := by
    rw [changeEvents, List.filterMap_eq_nil_iff]
    intro i hi
    have hi' : i < n := by simpa using hi
    rw [bitRead_unpack hi', if_pos rfl]
  rw [applyEvents, if_pos hsame]

/-- On a bank that holds the payload's bits the `'T'` loop changes nothing (R150). -/
theorem applyOutputs_of_applied {m : InFlightMessage} {s : State} {n : Nat}
    (h : s.obank = some (unpack m.payload m.length n)) : s.applyOutputs m = s := by
  rw [applyOutputs_eq m h, applyEvents_unpack, length_unpack, List.append_nil, ← h]

/-- Settles O24: the first `'T'` leaves a bank that holds the payload's bits (or there is none), so the second has no
effect and makes no call. -/
theorem applyOutputsIdempotent : Obligations.ApplyOutputsIdempotent := by
  intro s t h
  rw [exec_eq_settle (by simp)] at h
  obtain ⟨br, rfl, -⟩ := settle_next h
  have hagain : ∀ u : State, u.applyOutputs u.msg = u → exec .msgT u = .next u := fun u hu =>
    show settle u (u.applyOutputs u.msg) = _ by rw [hu, settle_silent rfl rfl]
  apply hagain
  simp only [effect]
  rcases Option.eq_none_or_eq_some s.obank with hnone | ⟨bank, hbank⟩
  · rw [applyOutputs_none _ hnone]
    exact applyOutputs_none _ hnone
  · rw [applyOutputs_eq _ hbank]
    exact applyOutputs_of_applied rfl

/-- Settles O25, by the closed form of the poll. -/
theorem pollSamplesAndResponds : Obligations.PollSamplesAndResponds := by
  intro s hb
  have h : exec .msgP s = .next s.pollInputs := exec_of_breach_none (by simp) hb
  refine ⟨fun bank hbank => ?_, fun hnone => ?_⟩
  · rw [h, pollInputs_eq hbank]
    rfl
  · rw [h, pollInputs_none hnone]

/-- The bytes among some events that were written to the transport (R50, R187). -/
def txBytes (es : List Event) : List Byte :=
  es.filterMap fun e =>
    match e with
    | .txByte b => some b
    | _ => none

theorem State.tx_eq (s : State) : s.tx = txBytes s.events := rfl

theorem txBytes_append (es fs : List Event) : txBytes (es ++ fs) = txBytes es ++ txBytes fs :=
  List.filterMap_append

theorem txBytes_map_txByte (out : List Byte) : txBytes (out.map Event.txByte) = out := by
  induction out with
  | nil => rfl
  | cons b out ih => exact congrArg (b :: ·) ih

/-- Queries transmit nothing. -/
theorem txBytes_queryEvents (a : Answers) (n : Nat) : txBytes (queryEvents a n) = [] := by
  simp [txBytes, queryEvents]

/-- What a poll transmits (R144): the response, if it fits. -/
theorem tx_pollInputs {s : State} {bank : List Bool} (hbank : s.ibank = some bank) :
    s.pollInputs.tx = s.tx ++
      if rlen s.cfg.rLenPolicy bank.length < s.cfg.maxMsgLen then
        frameBytes (nodeAddress s.cfg) tagR
          (pack (s.answers.sampled bank.length) bank.length (rlen s.cfg.rLenPolicy bank.length))
      else [] := by
  rw [pollInputs_eq hbank]
  simp only [State.tx_eq, txBytes_append, txBytes_queryEvents, List.append_nil]
  split
  · rw [txBytes_map_txByte]
  · rfl

/-- Settles O26: the transmitted payload is the packed samples, read back bit by bit by `getBit_pack`. -/
theorem pollResponseContent : Obligations.PollResponseContent := by
  intro s bank hb hbank hfit
  have h : exec .msgP s = .next s.pollInputs := exec_of_breach_none (by simp) hb
  have hcap := le_rlen s.cfg.rLenPolicy bank.length
  refine ⟨_, pack (s.answers.sampled bank.length) bank.length (rlen s.cfg.rLenPolicy bank.length), h, ?_,
    length_pack _ _ _, fun i hi => ?_, fun i hi => ?_⟩
  · rw [tx_pollInputs hbank, if_pos hfit]
    rfl
  · rw [length_pack, getBit_pack hcap, decide_eq_true hi, Bool.true_and]
    exact bitRead_of_getElem? (by simp [Answers.sampled, hi])
  · rw [length_pack, getBit_pack hcap, decide_eq_false (Nat.not_lt.mpr hi), Bool.false_and]

/-- The poll carries another message along unread (R146). -/
theorem pollInputs_withMsg (m : InFlightMessage) (s : State) :
    { s with msg := m }.pollInputs = { s.pollInputs with msg := m } := by
  rcases Option.eq_none_or_eq_some s.ibank with hnone | ⟨bank, hbank⟩
  · rw [pollInputs_none hnone, pollInputs_none (s := { s with msg := m }) hnone]
  · rw [pollInputs_eq hbank, pollInputs_eq (s := { s with msg := m }) hbank]

/-- Settles O27: the effect carries the message along, and the end of the step does not look at it. -/
theorem pollIgnoresMessage : Obligations.PollIgnoresMessage := by
  intro s t m h
  have hset := settle_map (s := s) (s' := { s with msg := m }) (t := s.pollInputs) (fun u => { u with msg := m }) rfl
    rfl (fun _ => rfl)
  calc exec .msgP { s with msg := m }
    _ = settle { s with msg := m } { s with msg := m }.pollInputs := rfl
    _ = settle { s with msg := m } { s.pollInputs with msg := m } := by rw [pollInputs_withMsg]
    _ = andThen (exec .msgP s) fun u => .next { u with msg := m } := hset
    _ = .next { t with msg := m } := by rw [h, andThen_next]

/-- Settles O28: MSG_R is the sending half of the poll. -/
theorem transmitResponseResult : Obligations.TransmitResponseResult := by
  intro s hb
  have h : exec .msgR s = .next s.sendResponse := exec_of_breach_none (by simp) hb
  refine ⟨fun bank hbank hfit => ?_, fun bank hbank hfull => ?_, fun hnone => ?_⟩
  · rw [h, sendResponse_eq hbank, if_pos hfit]
    rfl
  · rw [h, sendResponse_eq hbank, if_neg (Nat.not_lt.mpr hfull)]
  · rw [h, sendResponse_none hnone]

/-- A frame for another node is only counted (R140). -/
theorem dispatch_of_ne {s : State} (h : s.msg.dest ≠ nodeAddress s.cfg) : s.dispatch = s.countSeen := if_neg h

/-- A frame for this node is counted twice and routed (R140). -/
theorem dispatch_of_eq {s : State} (h : s.msg.dest = nodeAddress s.cfg) :
    s.dispatch = s.countSeen.countProcessed.route s.msg := if_pos h

/-- A type that names no handler does nothing (R147). -/
theorem route_of_unknown {m : InFlightMessage} (h : m.mtype ≠ 0x49 ∧ m.mtype ≠ 0x54 ∧ m.mtype ≠ 0x50) (s : State) :
    s.route m = s := by
  obtain ⟨hI, hT, hP⟩ := h
  rw [State.route, tagI, tagT, tagP, if_neg hI, if_neg hT, if_neg hP]

/-- Settles O29: routing such a frame does nothing, so DISPATCH only counts and makes no call. -/
theorem unknownTypeIgnored : Obligations.UnknownTypeIgnored := by
  refine fun s => ⟨fun hdest hI hT hP => ?_, fun t => ?_⟩
  · have heff : s.dispatch = s.countSeen.countProcessed := by
      rw [dispatch_of_eq hdest, route_of_unknown ⟨hI, hT, hP⟩]
    show settle s s.dispatch = _
    rw [heff]
    exact settle_silent rfl rfl
  · exact settle_silent rfl rfl

/-- Routing is the effect of the row the type byte selects (R141). -/
theorem route_eq_effect (s : State) : s.route s.msg = effect (decodeTag s.msg.mtype) s := by
  unfold State.route decodeTag
  by_cases hI : s.msg.mtype = tagI
  · rw [if_pos hI, if_pos hI]; rfl
  by_cases hT : s.msg.mtype = tagT
  · rw [if_neg hI, if_neg hI, if_pos hT, if_pos hT]; rfl
  by_cases hP : s.msg.mtype = tagP
  · rw [if_neg hI, if_neg hI, if_neg hT, if_neg hT, if_pos hP, if_pos hP]; rfl
  · rw [if_neg hI, if_neg hI, if_neg hT, if_neg hT, if_neg hP, if_neg hP]; rfl

theorem decodeTag_ne_service (t : Byte) : decodeTag t ≠ .service := by
  unfold decodeTag
  split_ifs <;> simp

/-- Settles O30: the counts make no call, so DISPATCH ends as its handler's own step does. -/
theorem dispatchCountsAndRoutes : Obligations.DispatchCountsAndRoutes := by
  refine fun s => ⟨fun hne => ?_, fun i hdest hi => ?_⟩
  · show settle s s.dispatch = _
    rw [dispatch_of_ne hne]
    exact settle_silent rfl rfl
  · cases hi
    rw [exec_eq_settle (decodeTag_ne_service _)]
    show settle s s.dispatch =
      settle s.countSeen.countProcessed (effect (decodeTag s.msg.mtype) s.countSeen.countProcessed)
    rw [dispatch_of_eq hdest]
    exact congrArg (settle s) (route_eq_effect s.countSeen.countProcessed)

end Sys2Proof.Machine
end

section
/-!
PROOFS. The family of 40_frame_parser.md: the cells run by themselves, and the one function they are together.
-/

namespace Sys2Proof.Machine

/-- Settles O8: the cell's effect, which makes no call. -/
theorem startAttnBeginsFrame : Obligations.StartAttnBeginsFrame :=
  fun _ => exec_of_silent (by simp) rfl

/-- Settles O9: all 13 cells have the one effect, the error transition on the counted state, which makes no call. -/
theorem errorCellsResetParser : Obligations.ErrorCellsResetParser := by
  intro s b
  refine ⟨?_, ?_, ?_, ?_, ?_, ?_, ?_, ?_, ?_, ?_, ?_, ?_, ?_⟩ <;> exact exec_of_silent (by simp) rfl

/-- Settles O10: the three cells' effects, which make no call. -/
theorem preambleAndEscapeCellsAdvance : Obligations.PreambleAndEscapeCellsAdvance :=
  fun _ => ⟨exec_of_silent (by simp) rfl, exec_of_silent (by simp) rfl, exec_of_silent (by simp) rfl⟩

/-- Settles O11: the two cells' effects, which make no call. -/
theorem headerCellsStore : Obligations.HeaderCellsStore :=
  fun _ _ => ⟨exec_of_silent (by simp) rfl, exec_of_silent (by simp) rfl⟩

/-- A cell whose effect is taking a data byte completes, whatever the environment does. -/
theorem exec_of_takeData {i : Instr} (hi : i ≠ .service) {s : State} {x : Byte}
    (h : effect i s = s.countByte.takeData x) : exec i s = .next (s.countByte.takeData x) := by
  rw [← h]
  exact exec_of_silent hi (by rw [h, takeData_events]; rfl)

/-- The cell of an unescaped FF under `APPEND` (R110, D4). -/
theorem effect_attn_append {s : State} (h : s.cfg.attnInData = .append) :
    effect .rxMaybeDataNextAttn s = s.countByte.takeData 0xFF := by
  simp only [effect, h]
  rfl

/-- The cell of an unescaped FF under `DISPATCH` (R110, D4). -/
theorem effect_attn_dispatch {s : State} (h : s.cfg.attnInData = .dispatch) :
    effect .rxMaybeDataNextAttn s = s.countByte.dispatch.goto .start := by
  simp only [effect, h]

/-- Settles O12: each data cell takes its byte as data, and there is room for it. -/
theorem dataCellsAppend : Obligations.DataCellsAppend := by
  intro s b hroom stored
  have hstored (x : Byte) : s.countByte.takeData x = stored x := takeData_of_lt hroom
  simp only [← hstored]
  exact ⟨exec_of_takeData (by simp) rfl, exec_of_takeData (by simp) rfl, exec_of_takeData (by simp) rfl,
    exec_of_takeData (by simp) rfl, fun ha => exec_of_takeData (by simp) (effect_attn_append ha)⟩

/-- Settles O13: taking a byte without room is the error transition, the effect of an error cell too. -/
theorem overflowIsFramingError : Obligations.OverflowIsFramingError := by
  intro s b c hfull
  have herror : exec (.rxStartOther c) s = .next (s.countByte.raiseFramingError .overflow) :=
    exec_of_silent (by simp) rfl
  have hover (x : Byte) : s.countByte.takeData x = s.countByte.raiseFramingError .overflow := takeData_of_full hfull
  simp only [herror, ← hover b]
  refine ⟨?_, exec_of_takeData (by simp) rfl, exec_of_takeData (by simp) rfl, exec_of_takeData (by simp) rfl,
    fun ha => ?_⟩
  · rw [hover b, ← hover 0x02]
    exact exec_of_takeData (by simp) rfl
  · rw [hover b, ← hover 0xFF]
    exact exec_of_takeData (by simp) (effect_attn_append ha)

/-- The end of a frame is DISPATCH on the counted state and then `START` (R109, R149): it stops where DISPATCH stops. -/
theorem settle_endOfFrame (s : State) :
    settle s (s.countByte.dispatch.goto .start) =
      andThen (exec .dispatch s.countByte) fun u => .next { u with state := .start } :=
  settle_map (s := s.countByte) (State.goto .start) rfl rfl fun _ => rfl

/-- Settles O14, by `settle_endOfFrame` for both cells. -/
theorem frameEndCellsDispatch : Obligations.FrameEndCellsDispatch := by
  refine fun s => ⟨settle_endOfFrame s, fun hd => ?_, fun hb => ⟨_, exec_of_breach_none (by simp) hb⟩⟩
  rw [exec_eq_settle (by simp), effect_attn_dispatch hd]
  exact settle_endOfFrame s

/-- A byte that ends the frame in `MAYBE_DATA_NEXT`: `ETX`, and FF under `DISPATCH` (R109, R110). -/
abbrev endsFrame (c : Config) (b : Byte) : Prop := b = 0x03 ∨ (b = 0xFF ∧ c.attnInData = .dispatch)

/-- A byte that may not be escaped (R115), with the three that may written out. -/
theorem not_takenAsData_escaped_iff {c : Config} {b : Byte} :
    ¬ takenAsData c b true ↔ c.escapePolicy = .strict ∧ ¬ (b = 0x02 ∨ b = 0x03 ∨ b = 0x10) := by
  rw [← isEscaped_iff]
  show ¬ (c.escapePolicy = .liberal ∨ isEscaped b = true) ↔ _
  cases c.escapePolicy <;> simp

section
variable {s : State} {b : Byte}

/-- The effect of a byte that ends the frame. -/
theorem effect_endsFrame (policy : EscapePolicy) (h : endsFrame s.cfg b) :
    effect (decodeRx policy .maybeDataNext b) s = s.countByte.dispatch.goto .start := by
  rcases h with rfl | ⟨rfl, hd⟩
  · rfl
  · exact effect_attn_dispatch hd

/-- The effect of an unescaped data byte (R110 to R112). -/
theorem effect_plainData (policy : EscapePolicy) (h : takenAsData s.cfg b false) :
    effect (decodeRx policy .maybeDataNext b) s = s.countByte.takeData b := by
  obtain ⟨hetx, hdle, hattn⟩ := h
  obtain ⟨rfl, -⟩ | ⟨rfl, -⟩ | ⟨rfl, -⟩ | ⟨rfl, -⟩ | ⟨-, hclass⟩ := byteClass_cases b
  · exact effect_attn_append (hattn.resolve_left fun hne => hne rfl)
  · rfl
  · exact absurd rfl hdle
  · exact absurd rfl hetx
  · simp only [decodeRx, hclass, effect]

/-- The effect of an escaped data byte (R114, R115). -/
theorem effect_escapedData (h : takenAsData s.cfg b true) :
    effect (decodeRx s.cfg.escapePolicy .dataNext b) s = s.countByte.takeData b := by
  rcases h with hliberal | hescaped
  · rw [hliberal]; rfl
  · cases s.cfg.escapePolicy with
    | liberal => rfl
    | strict => rw [decodeRx_strict_dataNext, if_pos hescaped]; rfl

/-- The effect of a byte that may not be escaped (R115). -/
theorem effect_badEscape (h : ¬ takenAsData s.cfg b true) :
    effect (decodeRx s.cfg.escapePolicy .dataNext b) s = s.countByte.raiseFramingError .badEscape := by
  obtain ⟨hstrict, hescaped⟩ := not_takenAsData_escaped_iff.mp h
  rw [hstrict, decodeRx_strict_dataNext, if_neg (mt (isEscaped_iff b).mp hescaped)]
  rfl

/-- The effect of every byte but FF in `START` (R102). -/
theorem effect_start_error (policy : EscapePolicy) (h : b ≠ 0xFF) :
    effect (decodeRx policy .start b) s = s.countByte.raiseFramingError .startNotAttn := by
  obtain ⟨rfl, -⟩ | ⟨rfl, -⟩ | ⟨rfl, -⟩ | ⟨rfl, -⟩ | ⟨-, hclass⟩ := byteClass_cases b
  case inl => exact absurd rfl h
  case inr.inr.inr.inr => simp only [decodeRx, hclass, effect]
  all_goals rfl

/-- The effect of every byte but FF in `ATTN_NEXT` (R104). -/
theorem effect_attnNext_error (policy : EscapePolicy) (h : b ≠ 0xFF) :
    effect (decodeRx policy .attnNext b) s = s.countByte.raiseFramingError .attnNextNotAttn := by
  obtain ⟨rfl, -⟩ | ⟨rfl, -⟩ | ⟨rfl, -⟩ | ⟨rfl, -⟩ | ⟨-, hclass⟩ := byteClass_cases b
  case inl => exact absurd rfl h
  case inr.inr.inr.inr => simp only [decodeRx, hclass, effect]
  all_goals rfl

/-- The effect of every byte but 02 in `STX_NEXT` (R106). -/
theorem effect_stxNext_error (policy : EscapePolicy) (h : b ≠ 0x02) :
    effect (decodeRx policy .stxNext b) s = s.countByte.raiseFramingError .stxNextNotStx := by
  obtain ⟨rfl, -⟩ | ⟨rfl, -⟩ | ⟨rfl, -⟩ | ⟨rfl, -⟩ | ⟨-, hclass⟩ := byteClass_cases b
  case inr.inl => exact absurd rfl h
  case inr.inr.inr.inr => simp only [decodeRx, hclass, effect]
  all_goals rfl

/-- In `MAYBE_DATA_NEXT` a byte ends the frame, begins an escape or is data. -/
theorem maybeDataNext_cases (c : Config) (b : Byte) : endsFrame c b ∨ b = 0x10 ∨ takenAsData c b false := by
  by_cases hetx : b = 0x03
  · exact .inl (.inl hetx)
  by_cases hdle : b = 0x10
  · exact .inr (.inl hdle)
  by_cases hattn : b = 0xFF
  · cases ha : c.attnInData with
    | dispatch => exact .inl (.inr ⟨hattn, ha⟩)
    | append => exact .inr (.inr ⟨hetx, hdle, .inr ha⟩)
  · exact .inr (.inr ⟨hetx, hdle, .inl hattn⟩)

/-- A byte taken for data neither ends the frame nor begins an escape. -/
theorem not_endsFrame_of_plainData {c : Config} (h : takenAsData c b false) : ¬ endsFrame c b ∧ b ≠ 0x10 := by
  obtain ⟨hetx, hdle, hattn⟩ := h
  refine ⟨?_, hdle⟩
  rintro (rfl | ⟨rfl, hd⟩)
  · exact hetx rfl
  · have ha := hattn.resolve_left fun hne => hne rfl
    simp [hd] at ha

/-- The cells the decoder selects are together the function of R119, by the parser state and, in it, the branch of the
function the byte takes. -/
theorem wholeFeed_eq_settle (b : Byte) (s : State) :
    wholeFeed b s = settle s (effect (decodeRx s.cfg.escapePolicy s.state b) s) := by
  refine congrArg (settle s) ?_
  cases s.state with
  | start =>
    by_cases hb : b = 0xFF
    · subst hb; rfl
    · rw [effect_start_error _ hb]; exact if_neg hb
  | attnNext =>
    by_cases hb : b = 0xFF
    · subst hb; rfl
    · rw [effect_attnNext_error _ hb]; exact if_neg hb
  | stxNext =>
    by_cases hb : b = 0x02
    · subst hb; rfl
    · rw [effect_stxNext_error _ hb]; exact if_neg hb
  | addrNext => rfl
  | typeNext => rfl
  | maybeDataNext =>
    rcases maybeDataNext_cases s.cfg b with hend | rfl | hdata
    · rw [effect_endsFrame _ hend]; exact if_pos hend
    · rfl
    · obtain ⟨hend, hdle⟩ := not_endsFrame_of_plainData hdata
      rw [effect_plainData _ hdata]
      exact (if_neg hend).trans (if_neg hdle)
  | dataNext =>
    by_cases hb : takenAsData s.cfg b true
    · rw [effect_escapedData hb]
      exact if_neg fun h => not_takenAsData_escaped_iff.mpr h hb
    · rw [effect_badEscape hb]
      exact if_pos (not_takenAsData_escaped_iff.mp hb)

end

/-- Settles O7: the selected cell, `feed` and the whole function are the same effect with the same end. -/
theorem cellsAreWholeFunction : Obligations.CellsAreWholeFunction := by
  intro b s
  rw [wholeFeed_eq_settle]
  exact ⟨exec_eq_settle (decodeRx_ne_service _ _ _) s, feed_eq_settle b s⟩

end Sys2Proof.Machine
end

section
/-!
PROOFS. The family of 40_frame_parser.md and 60_exceptions.md: what one byte does, by the parser state and the byte.
-/

namespace Sys2Proof.Machine

section
variable {s : State} {b : Byte}

/-- The first preamble byte (R101). -/
theorem feed_start_attn (h : s.state = .start) : feed 0xFF s = .next (s.countByte.messageReset.goto .attnNext) :=
  feed_of_decodeRx (i := .rxStartAttn) (by rw [h]; rfl) rfl

/-- `feed` of a byte whose effect is the error transition. -/
theorem feed_of_error {c : ErrorCause}
    (h : effect (decodeRx s.cfg.escapePolicy s.state b) s = s.countByte.raiseFramingError c) :
    feed b s = .next (s.countByte.raiseFramingError c) := by
  rw [← h]
  exact feed_of_silent b s (by rw [h]; rfl)

/-- `feed` of a byte whose effect is taking it as data. -/
theorem feed_of_takeData (h : effect (decodeRx s.cfg.escapePolicy s.state b) s = s.countByte.takeData b) :
    feed b s = .next (s.countByte.takeData b) := by
  rw [← h]
  exact feed_of_silent b s (by rw [h, takeData_events]; rfl)

/-- Any other byte in `START` (R102). -/
theorem feed_start_error (h : s.state = .start) (hb : b ≠ 0xFF) :
    feed b s = .next (s.countByte.raiseFramingError .startNotAttn) :=
  feed_of_error (by rw [h, effect_start_error _ hb])

/-- Any other byte in `ATTN_NEXT` (R104). -/
theorem feed_attnNext_error (h : s.state = .attnNext) (hb : b ≠ 0xFF) :
    feed b s = .next (s.countByte.raiseFramingError .attnNextNotAttn) :=
  feed_of_error (by rw [h, effect_attnNext_error _ hb])

/-- Any other byte in `STX_NEXT` (R106). -/
theorem feed_stxNext_error (h : s.state = .stxNext) (hb : b ≠ 0x02) :
    feed b s = .next (s.countByte.raiseFramingError .stxNextNotStx) :=
  feed_of_error (by rw [h, effect_stxNext_error _ hb])

/-- The end of a frame: DISPATCH on the counted state, then `START` (R109, R110). -/
theorem feed_endsFrame (h : s.state = .maybeDataNext) (hb : endsFrame s.cfg b) :
    feed b s = andThen (exec .dispatch s.countByte) fun u => .next { u with state := .start } := by
  rw [feed_eq_settle, h, effect_endsFrame _ hb, settle_endOfFrame]

/-- An unescaped data byte (R110 to R112). -/
theorem feed_plainData (h : s.state = .maybeDataNext) (hb : takenAsData s.cfg b false) :
    feed b s = .next (s.countByte.takeData b) :=
  feed_of_takeData (by rw [h, effect_plainData _ hb])

/-- An escaped data byte (R114, R115). -/
theorem feed_escapedData (h : s.state = .dataNext) (hb : takenAsData s.cfg b true) :
    feed b s = .next (s.countByte.takeData b) :=
  feed_of_takeData (by rw [h, effect_escapedData hb])

/-- A byte that may not be escaped (R115). -/
theorem feed_badEscape (h : s.state = .dataNext) (hb : ¬ takenAsData s.cfg b true) :
    feed b s = .next (s.countByte.raiseFramingError .badEscape) :=
  feed_of_error (by rw [h, effect_badEscape hb])

end

/-- Settles O15, by the three preamble states: each takes the byte as the error transition. -/
theorem outOfPlaceBytesAreErrors : Obligations.OutOfPlaceBytesAreErrors := by
  rintro s b (⟨h, hb⟩ | ⟨h, hb⟩ | ⟨h, hb⟩)
  · exact ⟨_, feed_start_error h hb, rfl, rfl, rfl, rfl, rfl, rfl, rfl⟩
  · exact ⟨_, feed_attnNext_error h hb, rfl, rfl, rfl, rfl, rfl, rfl, rfl⟩
  · exact ⟨_, feed_stxNext_error h hb, rfl, rfl, rfl, rfl, rfl, rfl, rfl⟩

/-- Settles O17: in both states the byte is taken as data, which stores it or, without room, is the error transition. -/
theorem dataBytesStored : Obligations.DataBytesStored := by
  intro s b h
  have hfeed : feed b s = .next (s.countByte.takeData b) := by
    rcases h with ⟨h, hattn, hetx, hdle⟩ | ⟨h, hpolicy⟩
    · exact feed_plainData h ⟨hetx, hdle, .inl hattn⟩
    · exact feed_escapedData h (.inl hpolicy)
  by_cases hroom : s.msg.length < s.cfg.maxMsgLen
  · rw [takeData_of_lt (s := s.countByte) hroom] at hfeed
    exact ⟨_, hfeed, rfl, rfl, by rw [if_pos hroom]; exact ⟨rfl, rfl, rfl⟩⟩
  · rw [takeData_of_full (s := s.countByte) (Nat.le_of_not_lt hroom)] at hfeed
    exact ⟨_, hfeed, rfl, rfl, by rw [if_neg hroom]; exact ⟨rfl, rfl, rfl, rfl⟩⟩

/-- Settles O18: 03 is DISPATCH on the counted state and then `START`; what DISPATCH counts and keeps is its frame. -/
theorem etxEndsFrame : Obligations.EtxEndsFrame := by
  intro s hb h
  have hdispatch : exec .dispatch s.countByte = .next s.countByte.dispatch := exec_of_breach_none (by simp) hb
  obtain ⟨hmsg, hcnt, -, -, -⟩ := dispatch_frame s.countByte
  refine ⟨_, _, ?_, hdispatch, rfl, hmsg, ?_⟩
  · rw [feed_endsFrame h (.inl rfl), hdispatch, andThen_next]
  · simp only [hcnt]
    exact ⟨rfl, rfl, rfl⟩

/-- Settles O31: such a frame has no handler to run, so its end only counts and makes no call. -/
theorem mismatchAndUnknownTypeNoErrors : Obligations.MismatchAndUnknownTypeNoErrors := by
  intro b s h hend hnone
  have hdispatch : s.countByte.dispatch = s.countByte.countSeen ∨
      s.countByte.dispatch = s.countByte.countSeen.countProcessed := by
    rcases dispatch_cases s.countByte with ⟨hdest, heq⟩ | ⟨-, heq⟩
    · exact .inr (heq.trans (route_of_unknown (hnone.resolve_left fun hne => hne hdest) _))
    · exact .inl heq
  have hsilent : (s.countByte.dispatch).events = s.events ∧ s.countByte.dispatch.ibank = s.ibank ∧
      s.countByte.dispatch.obank = s.obank ∧ s.countByte.dispatch.breach = s.breach := by
    rcases hdispatch with heq | heq <;> rw [heq] <;> exact ⟨rfl, rfl, rfl, rfl⟩
  obtain ⟨hevents, hibank, hobank, hbreach⟩ := hsilent
  have hexec : exec .dispatch s.countByte = .next s.countByte.dispatch := settle_silent hevents hbreach
  obtain ⟨-, hcnt, -, -, -⟩ := dispatch_frame s.countByte
  refine ⟨{ s.countByte.dispatch with state := .start }, ?_, ?_⟩
  · rw [feed_endsFrame h hend, hexec, andThen_next]
  · simp only [hcnt]
    exact ⟨rfl, rfl, rfl, hevents, hibank, hobank⟩

/-- What a byte does that neither errs nor ends a frame: it moves the parser to `p` with the record `m`. -/
structure Advances (s : State) (p : ParserState) (m : InFlightMessage) : Prop where
  /-- the payload storage keeps its canonical form (R23) -/
  payloadWf : s.msg.wf s.cfg.maxMsgLen = true → m.wf s.cfg.maxMsgLen = true
  /-- an incomplete header stays clean (R24) -/
  header : headerClean s.state s.msg = true → headerClean p m = true

/-- A data byte stores or overflows. -/
theorem takeData_advances_or_error (s : State) (b : Byte) :
    (∃ c, s.countByte.takeData b = s.countByte.raiseFramingError c) ∨
    ∃ p m, s.countByte.takeData b = { s.countByte with state := p, msg := m } ∧ Advances s p m := by
  rcases takeData_cases b s.countByte with ⟨hroom, heq⟩ | ⟨-, heq⟩
  · refine .inr ⟨_, _, heq, fun hwf => ?_, fun _ => rfl⟩
    exact State.append_wf (s := s.countByte) (b := b) hwf (append_of_lt hroom)
  · exact .inl ⟨_, heq⟩

/-- All a received byte can do (R119): take the error transition, end a frame, or move the parser on. -/
theorem effect_decodeRx_cases (b : Byte) (s : State) :
    (∃ c, effect (decodeRx s.cfg.escapePolicy s.state b) s = s.countByte.raiseFramingError c) ∨
    (s.state = .maybeDataNext ∧ endsFrame s.cfg b ∧
      effect (decodeRx s.cfg.escapePolicy s.state b) s = s.countByte.dispatch.goto .start) ∨
    ∃ p m, effect (decodeRx s.cfg.escapePolicy s.state b) s = { s.countByte with state := p, msg := m } ∧
      Advances s p m := by
  cases h : s.state with
  | start =>
    by_cases hb : b = 0xFF
    · subst hb
      exact .inr (.inr ⟨_, _, rfl, fun _ => InFlightMessage.wf_cleared _, fun _ => rfl⟩)
    · exact .inl ⟨_, effect_start_error _ hb⟩
  | attnNext =>
    by_cases hb : b = 0xFF
    · subst hb
      exact .inr (.inr ⟨_, _, rfl, id, fun hc => by rw [h] at hc; exact hc⟩)
    · exact .inl ⟨_, effect_attnNext_error _ hb⟩
  | stxNext =>
    by_cases hb : b = 0x02
    · subst hb
      exact .inr (.inr ⟨_, _, rfl, id, fun hc => by rw [h] at hc; exact hc⟩)
    · exact .inl ⟨_, effect_stxNext_error _ hb⟩
  | addrNext =>
    refine .inr (.inr ⟨_, _, rfl, id, fun hc => ?_⟩)
    have hmsg : s.msg = .cleared := by simpa [h, headerClean] using hc
    simp [headerClean, hmsg]
  | typeNext => exact .inr (.inr ⟨_, _, rfl, id, fun _ => rfl⟩)
  | maybeDataNext =>
    rcases maybeDataNext_cases s.cfg b with hend | rfl | hdata
    · exact .inr (.inl ⟨rfl, hend, effect_endsFrame _ hend⟩)
    · exact .inr (.inr ⟨_, _, rfl, id, fun _ => rfl⟩)
    · rw [effect_plainData _ hdata]
      exact (takeData_advances_or_error s b).imp_right .inr
  | dataNext =>
    by_cases hb : takenAsData s.cfg b true
    · rw [effect_escapedData hb]
      exact (takeData_advances_or_error s b).imp_right .inr
    · exact .inl ⟨_, effect_badEscape hb⟩

/-- If `feed` answers a next state: the three ways it came about. Only the end of a frame can make calls, so only there
can the coming breach have changed. -/
theorem feed_next_cases {b : Byte} {s t : State} (h : feed b s = .next t) :
    (∃ c, t = s.countByte.raiseFramingError c) ∨
    (s.state = .maybeDataNext ∧ endsFrame s.cfg b ∧
      ∃ br, t = { s.countByte.dispatch with state := .start, breach := br }) ∨
    ∃ p m, t = { s.countByte with state := p, msg := m } ∧ Advances s p m := by
  have hsilent {u : State} (heff : effect (decodeRx s.cfg.escapePolicy s.state b) s = u) (hev : u.events = s.events) :
      t = u := by
    have hfeed := feed_of_silent b s (by rw [heff, hev])
    rw [h, heff] at hfeed
    cases hfeed
    rfl
  rcases effect_decodeRx_cases b s with ⟨c, heff⟩ | ⟨hst, hend, heff⟩ | ⟨p, m, heff, hadv⟩
  · exact .inl ⟨c, hsilent heff rfl⟩
  · obtain ⟨br, ht, -⟩ := feed_next h
    rw [heff] at ht
    exact .inr (.inl ⟨hst, hend, br, ht⟩)
  · exact .inr (.inr ⟨p, m, hsilent heff rfl, hadv⟩)

/-- Settles O19: of the three ways only the error transition changes the error count. -/
theorem errorsArePrecise : Obligations.ErrorsArePrecise := by
  intro b s t h herr
  rcases feed_next_cases h with ⟨c, rfl⟩ | ⟨-, -, br, rfl⟩ | ⟨p, m, rfl, -⟩
  · rfl
  · refine absurd ?_ herr
    obtain ⟨-, hcnt, -, -, -⟩ := dispatch_frame s.countByte
    simp only [hcnt]
    rfl
  · exact absurd rfl herr

/-- Settles O20: a byte that errs is the error transition (O19); in `START` FF begins a preamble and any other byte
errs. -/
theorem recoveryIsNextPreamble : Obligations.RecoveryIsNextPreamble := by
  refine fun b s => ⟨fun t h herr => by rw [errorsArePrecise b s t h herr], fun hstart => ?_⟩
  by_cases hb : b = 0xFF
  · subst hb
    exact ⟨_, feed_start_attn hstart, by simp, fun _ => rfl⟩
  · exact ⟨_, feed_start_error hstart hb, ⟨fun hne => absurd rfl hne, fun h => absurd h hb⟩, fun h => absurd h hb⟩

/-! What each handler can touch: the outputs, the inputs, the transport. -/

/-- The input bank and the coming query answers are the same in two states. -/
def SameInputs (s t : State) : Prop :=
  t.ibank = s.ibank ∧ t.answers.lines = s.answers.lines ∧ t.answers.draws = s.answers.draws

section
variable (m : InFlightMessage) (s : State)

/-- `init_handler` touches no bank and no query answer, and transmits nothing. -/
theorem initHandler_frame :
    (s.initHandler m).obank = s.obank ∧ SameInputs s (s.initHandler m) ∧ (s.initHandler m).tx = s.tx := by
  rw [initHandler_eq]
  split
  · refine ⟨rfl, ⟨rfl, rfl, rfl⟩, ?_⟩
    rw [State.tx_eq, txBytes_append]
    exact List.append_nil _
  · exact ⟨rfl, ⟨rfl, rfl, rfl⟩, rfl⟩

/-- The events of a `'T'` transmit nothing. -/
theorem txBytes_applyEvents (bank : List Bool) : txBytes (applyEvents m bank) = [] := by
  have hchanges : txBytes (changeEvents m bank) = [] := by
    simp only [txBytes, changeEvents, List.filterMap_filterMap, List.filterMap_eq_nil_iff]
    intro i _
    split <;> rfl
  unfold applyEvents
  split
  · rfl
  · rw [txBytes_append, hchanges]
    rfl

/-- `apply_outputs` touches no input and transmits nothing. -/
theorem applyOutputs_frame : SameInputs s (s.applyOutputs m) ∧ (s.applyOutputs m).tx = s.tx := by
  rcases Option.eq_none_or_eq_some s.obank with hnone | ⟨bank, hbank⟩
  · rw [applyOutputs_none m hnone]
    exact ⟨⟨rfl, rfl, rfl⟩, rfl⟩
  · rw [applyOutputs_eq m hbank]
    refine ⟨⟨rfl, rfl, rfl⟩, ?_⟩
    rw [State.tx_eq, txBytes_append, txBytes_applyEvents, List.append_nil]
    rfl

/-- `poll_inputs` touches no output, and transmits only if there is an input bank whose response fits. -/
theorem pollInputs_frame :
    s.pollInputs.obank = s.obank ∧
    (s.pollInputs.tx ≠ s.tx → ∃ bank, s.ibank = some bank ∧ rlen s.cfg.rLenPolicy bank.length < s.cfg.maxMsgLen) := by
  rcases Option.eq_none_or_eq_some s.ibank with hnone | ⟨bank, hbank⟩
  · rw [pollInputs_none hnone]
    exact ⟨rfl, fun h => absurd rfl h⟩
  · refine ⟨by rw [pollInputs_eq hbank], fun htx => ⟨bank, hbank, ?_⟩⟩
    by_contra hfit
    rw [tx_pollInputs hbank, if_neg hfit, List.append_nil] at htx
    exact htx rfl

/-- What dispatching a frame can touch besides the counters, by the handler that runs (R140, R141). -/
theorem dispatch_effects :
    (s.dispatch.tx ≠ s.tx → s.msg.dest = nodeAddress s.cfg ∧ s.msg.mtype = 0x50 ∧
      ∃ bank, s.ibank = some bank ∧ rlen s.cfg.rLenPolicy bank.length < s.cfg.maxMsgLen) ∧
    (s.dispatch.obank ≠ s.obank → s.msg.dest = nodeAddress s.cfg ∧ s.msg.mtype = 0x54) ∧
    (¬ SameInputs s s.dispatch → s.msg.dest = nodeAddress s.cfg ∧ s.msg.mtype = 0x50) := by
  rcases dispatch_cases s with ⟨hdest, heq⟩ | ⟨-, heq⟩ <;> rw [heq]
  · rcases route_cases s.msg s.countSeen.countProcessed with ⟨-, he⟩ | ⟨htype, he⟩ | ⟨htype, he⟩ | ⟨-, he⟩ <;> rw [he]
    · obtain ⟨hobank, hinputs, htx⟩ := initHandler_frame s.msg s.countSeen.countProcessed
      exact ⟨fun h => absurd htx h, fun h => absurd hobank h, fun h => absurd hinputs h⟩
    · obtain ⟨hinputs, htx⟩ := applyOutputs_frame s.msg s.countSeen.countProcessed
      exact ⟨fun h => absurd htx h, fun _ => ⟨hdest, htype⟩, fun h => absurd hinputs h⟩
    · obtain ⟨hobank, hfits⟩ := pollInputs_frame s.countSeen.countProcessed
      exact ⟨fun h => ⟨hdest, htype, hfits h⟩, fun h => absurd hobank h, fun _ => ⟨hdest, htype⟩⟩
    · exact ⟨fun h => absurd rfl h, fun h => absurd rfl h, fun h => absurd ⟨rfl, rfl, rfl⟩ h⟩
  · exact ⟨fun h => absurd rfl h, fun h => absurd rfl h, fun h => absurd ⟨rfl, rfl, rfl⟩ h⟩

end

/-- Settles O32: only the end of a frame emits events, and of the handlers only a poll that fits transmits. -/
theorem onlyPollTransmits : Obligations.OnlyPollTransmits := by
  intro b s t h htx
  rcases feed_next_cases h with ⟨c, rfl⟩ | ⟨hst, hend, br, rfl⟩ | ⟨p, m, rfl, -⟩
  · exact absurd rfl htx
  · obtain ⟨hpoll, -, -⟩ := dispatch_effects s.countByte
    exact ⟨hst, hend, hpoll htx⟩
  · exact absurd rfl htx

/-- Settles O33: only the end of a frame touches the banks and the answers, each by its one handler. -/
theorem banksChangeOnlyByTheirFrames : Obligations.BanksChangeOnlyByTheirFrames := by
  intro b s t h
  simp only [ne_eq, ← not_and_or]
  rcases feed_next_cases h with ⟨c, rfl⟩ | ⟨hst, hend, br, rfl⟩ | ⟨p, m, rfl, -⟩
  · exact ⟨fun h => absurd rfl h, fun h => absurd ⟨rfl, rfl, rfl⟩ h⟩
  · obtain ⟨-, houtputs, hinputs⟩ := dispatch_effects s.countByte
    exact ⟨fun h => ⟨hst, hend, houtputs h⟩, fun h => ⟨hst, hend, hinputs h⟩⟩
  · exact ⟨fun h => absurd rfl h, fun h => absurd ⟨rfl, rfl, rfl⟩ h⟩

end Sys2Proof.Machine
end

section
/-!
PROOFS. The family of 43_frame_encoder.md and of runs of the parser: what a receiver makes of whole frames, of garbage
before them, and of an overflow.
-/

namespace Sys2Proof.Machine

/-! ## A frame fed byte by byte -/

/-- The state after a preamble and a header: a message without payload in flight, five bytes counted. -/
def State.withHeader (d t : Byte) (s : State) : State :=
  { s with
    state := .maybeDataNext
    msg := { dest := d, mtype := t, payload := [], length := 0 }
    cnt := { s.cnt with bytesSeen := s.cnt.bytesSeen + 5 }
    frozen := true }

/-- The preamble and the header from `START` (R101, R103, R105, R107, R108). -/
theorem feedAll_preamble {s : State} (h : s.state = .start) (d t : Byte) :
    feedAll [0xFF, 0xFF, 0x02, d, t] s = .next (s.withHeader d t) := by
  simp only [feedAll]
  rw [feed_start_attn h, andThen_next, feed_attnNext_attn rfl, andThen_next, feed_stxNext_stx rfl, andThen_next,
    feed_addrNext d rfl, andThen_next, feed_typeNext t rfl, andThen_next]
  rfl

/-- The state with `xs` stored at the end of the payload and `n` more bytes counted. -/
def State.withData (xs : List Byte) (n : Nat) (s : State) : State :=
  { s with
    msg := { s.msg with payload := s.msg.payload ++ xs, length := s.msg.length + xs.length }
    cnt := { s.cnt with bytesSeen := s.cnt.bytesSeen + n } }

theorem State.withData_nil (s : State) : s.withData [] 0 = s := by
  simp [State.withData]

theorem State.withData_withData (xs ys : List Byte) (m n : Nat) (s : State) :
    (s.withData xs m).withData ys n = s.withData (xs ++ ys) (m + n) := by
  simp [State.withData, Nat.add_assoc]

/-- Storing a data byte after the configuration is frozen. -/
theorem takeData_countByte_eq_withData {s : State} (hst : s.state = .maybeDataNext) (hfrozen : s.frozen = true)
    (hroom : s.msg.length < s.cfg.maxMsgLen) (x : Byte) : s.countByte.takeData x = s.withData [x] 1 := by
  rw [takeData_of_lt (s := s.countByte) hroom]
  cases s
  simp_all [State.withData, State.countByte]

/-- One payload byte as a sender writes it, taken for data with room for it (R110 to R115). -/
theorem feedAll_wirePayload_single {s : State} {x : Byte} {escaped : Bool} (hst : s.state = .maybeDataNext)
    (hfrozen : s.frozen = true) (hroom : s.msg.length < s.cfg.maxMsgLen) (hx : takenAsData s.cfg x escaped) :
    feedAll (wirePayload [(x, escaped)]) s = .next (s.withData [x] (wirePayload [(x, escaped)]).length) := by
  cases escaped with
  | false =>
    show andThen (feed x s) Host.Outcome.next = _
    rw [feed_plainData hst hx, andThen_next, takeData_countByte_eq_withData hst hfrozen hroom]
    rfl
  | true =>
    show andThen (feed 0x10 s) (fun u => andThen (feed x u) Host.Outcome.next) = _
    rw [feed_maybeDataNext_dle hst, andThen_next, feed_escapedData (s := s.countByte.goto .dataNext) rfl hx,
      andThen_next, takeData_of_lt (s := (s.countByte.goto .dataNext).countByte) hroom]
    cases s
    simp_all [State.withData, State.countByte, State.goto]

/-- A whole payload, each byte taken for data as it is written, with room for all (R120). -/
theorem feedAll_wirePayload (w : List (Byte × Bool)) {s : State} (hst : s.state = .maybeDataNext)
    (hfrozen : s.frozen = true) (hroom : s.msg.length + w.length ≤ s.cfg.maxMsgLen)
    (hw : ∀ x e, (x, e) ∈ w → takenAsData s.cfg x e) :
    feedAll (wirePayload w) s = .next (s.withData (w.map Prod.fst) (wirePayload w).length) := by
  induction w generalizing s with
  | nil => simp only [List.map_nil, wirePayload_nil, List.length_nil, State.withData_nil, feedAll]
  | cons xe w ih =>
    obtain ⟨x, e⟩ := xe
    have hcons : wirePayload ((x, e) :: w) = wirePayload [(x, e)] ++ wirePayload w := by cases e <;> rfl
    have hlen : s.msg.length + (w.length + 1) ≤ s.cfg.maxMsgLen := hroom
    have hrest := ih (s := s.withData [x] (wirePayload [(x, e)]).length) hst hfrozen
      (show s.msg.length + 1 + w.length ≤ s.cfg.maxMsgLen by omega) fun y f hy => hw y f (List.mem_cons_of_mem _ hy)
    rw [hcons, feedAll_append, feedAll_wirePayload_single hst hfrozen (by omega) (hw x e List.mem_cons_self),
      andThen_next, hrest, State.withData_withData, List.length_append]
    rfl

/-- A whole frame from `START`, its payload written as the receiver takes it for data and ended by any byte that ends
it: one DISPATCH of exactly its message, then `START` (R120, R191). -/
theorem feedAll_frame {s : State} {w : List (Byte × Bool)} {last : Byte} (d t : Byte) (h : s.state = .start)
    (hroom : w.length ≤ s.cfg.maxMsgLen) (hw : ∀ x e, (x, e) ∈ w → takenAsData s.cfg x e)
    (hlast : endsFrame s.cfg last) :
    feedAll ([0xFF, 0xFF, 0x02, d, t] ++ wirePayload w ++ [last]) s =
      andThen
        (exec .dispatch
          { s with
            state := .maybeDataNext
            msg := { dest := d, mtype := t, payload := w.map Prod.fst, length := w.length }
            cnt := { s.cnt with bytesSeen := s.cnt.bytesSeen + (6 + (wirePayload w).length) }
            frozen := true })
        (fun u => .next { u with state := .start }) := by
  rw [feedAll_append, feedAll_append, feedAll_preamble h, andThen_next,
    feedAll_wirePayload w (s := s.withHeader d t) rfl rfl (by simpa [State.withHeader] using hroom) hw, andThen_next]
  have hend := feed_endsFrame (s := (s.withHeader d t).withData (w.map Prod.fst) (wirePayload w).length) rfl hlast
  have hbytes : s.cnt.bytesSeen + (6 + (wirePayload w).length) = s.cnt.bytesSeen + 5 + (wirePayload w).length + 1 := by
    omega
  simp only [feedAll, hend, andThen_assoc, andThen_next, hbytes]
  simp only [State.withHeader, State.withData, State.countByte, List.nil_append, List.length_map, Nat.zero_add]

/-! ## The encoder's frames and the host's -/

/-- The encoder's writing of a byte is data for every receiver, but for FF under `DISPATCH` (R186, R190). -/
theorem takenAsData_isEscaped {c : Config} {x : Byte} (h : x ≠ 0xFF ∨ c.attnInData = .append) :
    takenAsData c x (isEscaped x) := by
  by_cases hx : isEscaped x = true
  · rw [hx]
    exact .inr hx
  · rw [Bool.eq_false_iff.mpr hx]
    have hne := mt (isEscaped_iff x).mpr hx
    exact ⟨fun h3 => hne (.inr (.inl h3)), fun h10 => hne (.inr (.inr h10)), h⟩

/-- The encoder's payload from `START`, whichever byte ends the frame. -/
theorem feedAll_escPayload_frame {s : State} {p : List Byte} {last : Byte} (d t : Byte) (h : s.state = .start)
    (hroom : p.length ≤ s.cfg.maxMsgLen) (hp : s.cfg.attnInData = .append ∨ (0xFF : Byte) ∉ p)
    (hlast : endsFrame s.cfg last) :
    feedAll ([0xFF, 0xFF, 0x02, d, t] ++ escPayload p ++ [last]) s =
      andThen
        (exec .dispatch
          { s with
            state := .maybeDataNext
            msg := { dest := d, mtype := t, payload := p, length := p.length }
            cnt := { s.cnt with bytesSeen := s.cnt.bytesSeen + (6 + (escPayload p).length) }
            frozen := true })
        (fun u => .next { u with state := .start }) := by
  have htaken : ∀ x e, (x, e) ∈ p.map (fun x => (x, isEscaped x)) → takenAsData s.cfg x e := by
    intro x e hx
    obtain ⟨y, hy, heq⟩ := List.mem_map.mp hx
    cases heq
    exact takenAsData_isEscaped (hp.symm.imp_left fun hff hxff => hff (hxff ▸ hy))
  have hframe := feedAll_frame d t h (by simpa using hroom) htaken hlast
  simpa only [wirePayload_map_isEscaped, List.map_map, Function.comp_def, List.map_id', List.length_map] using hframe

/-- An encoded frame is six bytes and the escaped payload. -/
theorem length_frameBytes (d t : Byte) (p : List Byte) : (frameBytes d t p).length = 6 + (escPayload p).length := by
  simp only [frameBytes, List.length_append, List.length_cons, List.length_nil]
  omega

/-- Settles O41: an encoded frame is a payload written as the receiver takes it, ended by 03. -/
theorem encodedFrameRoundTrips : Obligations.EncodedFrameRoundTrips := by
  intro s d t p h hroom hp
  rw [length_frameBytes]
  exact feedAll_escPayload_frame d t h hroom hp (.inl rfl)

theorem escPayload_append (p q : List Byte) : escPayload (p ++ q) = escPayload p ++ escPayload q :=
  List.flatMap_append

/-- Settles O42: the first FF ends the frame as 03 would, and the run goes on in `START` with what is left. -/
theorem unescapedAttnCutsFrame : Obligations.UnescapedAttnCutsFrame := by
  intro s d t q r h hdispatch hq hroom
  have hsplit : frameBytes d t (q ++ 0xFF :: r) =
      ([0xFF, 0xFF, 0x02, d, t] ++ escPayload q ++ [0xFF]) ++ (escPayload r ++ [0x03]) := by
    have hff : esc 0xFF = [0xFF] := rfl
    simp only [frameBytes, escPayload_append, escPayload_cons, hff, List.append_assoc]
    rfl
  rw [hsplit, feedAll_append, feedAll_escPayload_frame d t h hroom (.inr hq) (.inr ⟨rfl, hdispatch⟩), andThen_assoc]
  simp only [andThen_next]

/-- A host's payload is the one in which FF is written with a `DLE` too (R266). -/
theorem wirePayload_map_hostEsc (p : List Byte) :
    wirePayload (p.map fun x => (x, decide (x = 0xFF ∨ isEscaped x = true))) = p.flatMap hostEsc := by
  simp only [wirePayload, List.flatMap_map, decide_eq_true_eq]
  rfl

/-- A host's writing of a byte is data under `LIBERAL`, whatever `ATTN_IN_DATA`. -/
theorem takenAsData_hostEsc {c : Config} (hpolicy : c.escapePolicy = .liberal) (x : Byte) :
    takenAsData c x (decide (x = 0xFF ∨ isEscaped x = true)) := by
  by_cases hx : x = 0xFF ∨ isEscaped x = true
  · rw [decide_eq_true hx]
    exact .inl hpolicy
  · obtain ⟨hff, hesc⟩ := not_or.mp hx
    rw [decide_eq_false hx, ← Bool.eq_false_iff.mpr hesc]
    exact takenAsData_isEscaped (.inl hff)

/-- Settles O43: the host's payload is one the receiver takes for data byte by byte. -/
theorem hostEscapedFrameAccepted : Obligations.HostEscapedFrameAccepted := by
  intro s d t p h hpolicy hroom
  have htaken : ∀ x e, (x, e) ∈ p.map (fun x => (x, decide (x = 0xFF ∨ isEscaped x = true))) →
      takenAsData s.cfg x e := by
    intro x e hx
    obtain ⟨y, -, heq⟩ := List.mem_map.mp hx
    cases heq
    exact takenAsData_hostEsc hpolicy x
  have hframe := feedAll_frame d t h (by simpa using hroom) htaken (.inl rfl)
  simpa only [wirePayload_map_hostEsc, List.map_map, Function.comp_def, List.map_id', List.length_map] using hframe

/-- Settles O44: the garbage byte is the error transition, which leaves the parser in `START` for the frame. -/
theorem garbageByteCostsOneError : Obligations.GarbageByteCostsOneError := by
  intro s g d t w h hg hroom hw
  have hbytes : s.cnt.bytesSeen + (7 + (wirePayload w).length) =
      s.cnt.bytesSeen + 1 + (6 + (wirePayload w).length) := by
    omega
  rw [feedAll, feed_start_error h hg, andThen_next, hbytes]
  exact feedAll_frame d t rfl hroom hw (.inl rfl)

/-! ## Bytes between frames -/

/-- The state after `n` bytes of which `e` were errors, the last of them among these (R220). -/
def State.abandoned (n e : Nat) (s : State) : State :=
  { s with
    state := .start
    msg := .cleared
    cnt := { s.cnt with bytesSeen := s.cnt.bytesSeen + n, parserErrors := s.cnt.parserErrors + e }
    frozen := true }

theorem State.raiseFramingError_countByte (c : ErrorCause) (s : State) :
    s.countByte.raiseFramingError c = s.abandoned 1 1 := rfl

theorem State.abandoned_abandoned (n m e f : Nat) (s : State) :
    (s.abandoned n e).abandoned m f = s.abandoned (n + m) (e + f) := by
  simp only [State.abandoned, Nat.add_assoc]

/-- After an error each byte that is not FF is one error more and nothing else (R102, R121). -/
theorem feedAll_garbage (rest : List Byte) (n e : Nat) (s : State) (hrest : (0xFF : Byte) ∉ rest) :
    feedAll rest (s.abandoned n e) = .next (s.abandoned (n + rest.length) (e + rest.length)) := by
  induction rest generalizing n e with
  | nil => rfl
  | cons b rest ih =>
    have hb : b ≠ 0xFF := fun h => hrest (h ▸ List.mem_cons_self)
    have hrest' : (0xFF : Byte) ∉ rest := fun h => hrest (List.mem_cons_of_mem _ h)
    rw [feedAll, feed_start_error rfl hb, andThen_next, State.raiseFramingError_countByte, State.abandoned_abandoned,
      ih _ _ hrest', List.length_cons, Nat.add_assoc, Nat.add_assoc, Nat.add_comm 1]

/-- Settles O45: the third FF and the 02 are errors, and then nothing can begin a frame. -/
theorem attnGarbageLosesFrame : Obligations.AttnGarbageLosesFrame := by
  intro s rest h hrest
  have hff : (0xFF : Byte) ≠ 0x02 := by decide
  have h02 : (0x02 : Byte) ≠ 0xFF := by decide
  have hstart : feedAll [0xFF, 0xFF, 0xFF, 0x02] s = .next (s.abandoned 4 2) := by
    simp only [feedAll]
    rw [feed_start_attn h, andThen_next, feed_attnNext_attn rfl, andThen_next, feed_stxNext_error rfl hff, andThen_next,
      feed_start_error rfl h02, andThen_next]
    rfl
  rw [feedAll_append, hstart, andThen_next, feedAll_garbage rest 4 2 s hrest, State.abandoned, ← h]
  rfl

/-- A data byte for which there is no room, escaped or not, costs its bytes and one error (R221, R225). -/
theorem feedAll_overflow {s : State} {b : Byte} {escaped : Bool} (h : s.state = .maybeDataNext)
    (hfull : s.cfg.maxMsgLen ≤ s.msg.length) (hb : escaped = true ∨ takenAsData s.cfg b false) :
    feedAll (wirePayload [(b, escaped)]) s = .next (s.abandoned (if escaped then 2 else 1) 1) := by
  cases escaped with
  | false =>
    have hdata : takenAsData s.cfg b false := hb.resolve_left (by decide)
    show andThen (feed b s) Host.Outcome.next = _
    rw [feed_plainData h hdata, andThen_next, takeData_of_full (s := s.countByte) hfull]
    rfl
  | true =>
    show andThen (feed 0x10 s) (fun u => andThen (feed b u) Host.Outcome.next) = _
    rw [feed_maybeDataNext_dle h, andThen_next]
    by_cases hdata : takenAsData s.cfg b true
    · rw [feed_escapedData (s := s.countByte.goto .dataNext) rfl hdata, andThen_next,
        takeData_of_full (s := (s.countByte.goto .dataNext).countByte) hfull]
      rfl
    · rw [feed_badEscape (s := s.countByte.goto .dataNext) rfl hdata, andThen_next]
      rfl

/-- Settles O46: the overflowing byte is one error, and then nothing can begin a frame. -/
theorem overflowAbandonsFrame : Obligations.OverflowAbandonsFrame := by
  intro s b escaped rest h hfull hrest hb
  rw [feedAll_append, feedAll_overflow h hfull hb, andThen_next, feedAll_garbage rest _ _ s hrest]
  rfl

/-! ## The flush -/

/-- How many bytes 03 take the parser to `START` at most (R123). -/
def flushLength : ParserState → Nat
  | .start => 0
  | .attnNext => 1
  | .stxNext => 1
  | .maybeDataNext => 1
  | .typeNext => 2
  | .dataNext => 2
  | .addrNext => 3

/-- How many frames bytes 03 can still end: one, once a header has begun (R107 to R109). -/
def openFrames : ParserState → Nat
  | .start => 0
  | .attnNext => 0
  | .stxNext => 0
  | .addrNext => 1
  | .typeNext => 1
  | .maybeDataNext => 1
  | .dataNext => 1

/-- One byte 03 of the flush, from `s` to `t`. -/
structure FlushStep (s t : State) : Prop where
  /-- it brings the parser nearer to `START` -/
  nearer : flushLength t.state ≤ flushLength s.state - 1
  /-- it ends a frame only if one has begun, and then none is left -/
  frames : t.cnt.framesSeen + openFrames t.state ≤ s.cnt.framesSeen + openFrames s.state
  framesMono : s.cnt.framesSeen ≤ t.cnt.framesSeen
  /-- it takes at most one error (R225) -/
  errors : t.cnt.parserErrors ≤ s.cnt.parserErrors + 1
  errorsMono : s.cnt.parserErrors ≤ t.cnt.parserErrors

theorem flushStep_of_error (s : State) (c : ErrorCause) : FlushStep s (s.countByte.raiseFramingError c) where
  nearer := Nat.zero_le _
  frames := Nat.add_le_add_left (Nat.zero_le _) _
  framesMono := le_rfl
  errors := le_rfl
  errorsMono := Nat.le_succ _

/-- Every byte 03 is such a step, by the parser state. -/
theorem feed_etx_flushStep {s t : State} (h : feed 0x03 s = .next t) : FlushStep s t := by
  have hattn : (0x03 : Byte) ≠ 0xFF := by decide
  have hstx : (0x03 : Byte) ≠ 0x02 := by decide
  cases hst : s.state with
  | start =>
    rw [feed_start_error hst hattn] at h
    cases h
    exact flushStep_of_error s _
  | attnNext =>
    rw [feed_attnNext_error hst hattn] at h
    cases h
    exact flushStep_of_error s _
  | stxNext =>
    rw [feed_stxNext_error hst hstx] at h
    cases h
    exact flushStep_of_error s _
  | addrNext =>
    rw [feed_addrNext _ hst] at h
    cases h
    constructor <;> simp [hst, flushLength, openFrames]
  | typeNext =>
    rw [feed_typeNext _ hst] at h
    cases h
    constructor <;> simp [hst, flushLength, openFrames]
  | maybeDataNext =>
    rw [feed_eq_settle, hst, effect_endsFrame _ (.inl rfl)] at h
    obtain ⟨br, rfl, -⟩ := settle_next h
    obtain ⟨-, hcnt, -, -, -⟩ := dispatch_frame s.countByte
    constructor <;> simp [hst, hcnt, flushLength, openFrames]
  | dataNext =>
    by_cases hb : takenAsData s.cfg 0x03 true
    · rw [feed_escapedData hst hb] at h
      cases h
      rcases takeData_cases 0x03 s.countByte with ⟨-, heq⟩ | ⟨-, heq⟩ <;> rw [heq]
      · constructor <;> simp [hst, flushLength, openFrames]
      · exact flushStep_of_error s _
    · rw [feed_badEscape hst hb] at h
      cases h
      exact flushStep_of_error s _

/-- In an environment that keeps its duties every run completes, and it goes on doing so (R125, R227). -/
theorem feedAll_completes (bs : List Byte) {s : State} (h : s.breach = none) :
    ∃ t, feedAll bs s = .next t ∧ t.breach = none := by
  induction bs generalizing s with
  | nil => exact ⟨s, rfl, h⟩
  | cons b bs ih =>
    have hfeed : feed b s = .next (effect (decodeRx s.cfg.escapePolicy s.state b) s) := by
      rw [feed_eq_settle, settle_of_breach_none h]
    rw [feedAll, hfeed, andThen_next]
    exact ih ((effect_breach _ s).trans h)

/-- Settles O47: three steps of the flush; no state is further than three bytes from `START`. -/
theorem flushForcesStart : Obligations.FlushForcesStart := by
  refine fun s => ⟨fun hb => (feedAll_completes _ hb).imp fun t ht => ht.1, fun t h => ?_⟩
  simp only [feedAll, andThen_next_iff, Host.Outcome.next.injEq] at h
  obtain ⟨u, h1, v, h2, w, h3, rfl⟩ := h
  obtain ⟨near1, frames1, seen1, errors1, erred1⟩ := feed_etx_flushStep h1
  obtain ⟨near2, frames2, seen2, errors2, erred2⟩ := feed_etx_flushStep h2
  obtain ⟨near3, frames3, seen3, errors3, erred3⟩ := feed_etx_flushStep h3
  have hfar : flushLength s.state ≤ 3 := by cases s.state <;> decide
  have hopen : openFrames s.state ≤ 1 := by cases s.state <;> decide
  have hstart : flushLength w.state = 0 → w.state = .start := by cases w.state <;> simp [flushLength]
  exact ⟨hstart (by omega), by omega, by omega, by omega, by omega⟩

/-! ## The shape of a frame -/

/-- An escaped payload has one byte more for each byte escaped (R74). -/
theorem length_escPayload (p : List Byte) : (escPayload p).length = p.length + (p.filter isEscaped).length := by
  induction p with
  | nil => rfl
  | cons x p ih =>
    rw [escPayload_cons, List.length_append, ih]
    by_cases h : isEscaped x = true
    · rw [esc_of_isEscaped h, List.filter_cons_of_pos h]
      simp only [List.length_cons, List.length_nil]
      omega
    · rw [esc_of_not_isEscaped h, List.filter_cons_of_neg h]
      simp only [List.length_cons, List.length_nil]
      omega

/-- A byte that is not escaped is no `DLE`. -/
theorem ne_dle_of_not_isEscaped {x : Byte} (h : ¬ isEscaped x = true) : x ≠ 0x10 := fun hx =>
  h ((isEscaped_iff x).mpr (.inr (.inr hx)))

/-- Every control byte of an escaped payload is an escape `DLE` or directly follows one (R189). -/
theorem escPayload_control_escaped (p : List Byte) {k : Nat} {x : Byte} (hx : (escPayload p)[k]? = some x)
    (hesc : isEscaped x = true) :
    escapeDleAt (escPayload p) k = true ∨ ∃ j, k = j + 1 ∧ escapeDleAt (escPayload p) j = true := by
  induction p generalizing k with
  | nil => simp at hx
  | cons y p ih =>
    rw [escPayload_cons] at hx ⊢
    by_cases hy : isEscaped y = true
    · rw [esc_of_isEscaped hy] at hx ⊢
      match k with
      | 0 => exact .inl rfl
      | 1 => exact .inr ⟨0, rfl, rfl⟩
      | k + 2 =>
        simp only [List.cons_append, List.nil_append, escapeDleAt_escaped]
        exact (ih hx).imp_right fun ⟨j, hj, hdle⟩ => ⟨j + 2, by omega, by rw [escapeDleAt_escaped]; exact hdle⟩
    · rw [esc_of_not_isEscaped hy] at hx ⊢
      have hne := ne_dle_of_not_isEscaped hy
      match k with
      | 0 =>
        cases hx
        exact absurd hesc hy
      | k + 1 =>
        simp only [List.cons_append, List.nil_append, escapeDleAt_plain hne]
        exact (ih hx).imp_right fun ⟨j, hj, hdle⟩ => ⟨j + 1, by omega, by rw [escapeDleAt_plain hne]; exact hdle⟩

/-- Every escape `DLE` directly precedes a control byte (R189). -/
theorem escPayload_escapeDle_precedes (p : List Byte) {k : Nat} (h : escapeDleAt (escPayload p) k = true) :
    ∃ x : Byte, (escPayload p)[k + 1]? = some x ∧ isEscaped x = true := by
  induction p generalizing k with
  | nil => cases k <;> simp [escapeDleAt] at h
  | cons y p ih =>
    rw [escPayload_cons] at h ⊢
    by_cases hy : isEscaped y = true
    · rw [esc_of_isEscaped hy] at h ⊢
      match k with
      | 0 => exact ⟨y, rfl, hy⟩
      | 1 => simp [escapeDleAt] at h
      | k + 2 =>
        simp only [List.cons_append, List.nil_append, escapeDleAt_escaped] at h
        exact ih h
    · rw [esc_of_not_isEscaped hy] at h ⊢
      have hne := ne_dle_of_not_isEscaped hy
      match k with
      | 0 => exact absurd (by simpa [escapeDleAt] using h) hne
      | k + 1 =>
        simp only [List.cons_append, List.nil_append, escapeDleAt_plain hne] at h
        exact ih h

/-- Settles O40: the lengths, the fixed bytes, and the two directions of the escape by induction on the payload. -/
theorem frameShape : Obligations.FrameShape := by
  intro d t p
  refine ⟨?_, rfl, rfl, fun k x => escPayload_control_escaped p, fun k => escPayload_escapeDle_precedes p⟩
  rw [length_frameBytes, length_escPayload, Nat.add_assoc]

end Sys2Proof.Machine
end

section
/-!
PROOFS. The family of 44_service_loop.md: the step, the service call, and how bytes are grouped into calls.
-/

namespace Sys2Proof.Machine

/-! ## The step -/

/-- A planned move is made first (log entry 2). -/
theorem step_of_pending {s : State} {c : HostCall} {rest : List HostCall} (h : s.pending = c :: rest) :
    step s = hostCall c { s with pending := rest } := by
  rw [step, h]

/-- A received byte is fed, taken from `RX` (R100, R203). -/
theorem step_of_byte {s : State} {b : Byte} {rest : List (Option Byte)} (hp : s.pending = [])
    (hx : s.rx = some b :: rest) : step s = feed b { s with rx := rest } := by
  have hfetch : fetch s = some (decodeRx s.cfg.escapePolicy s.state b, { s with rx := rest }) := by
    simp only [fetch, State.readByte, hx, decode_rx_cons]
  rw [feed_eq_exec]
  simp only [step, hp, hfetch]

/-- With nothing to read the environment calls `service()` (log entry 6). -/
theorem step_of_idle {s : State} (hp : s.pending = []) (hx : s.rx = [] ∨ ∃ rest, s.rx = none :: rest) :
    step s = exec .service s := by
  have hfetch : fetch s = none := by
    rcases hx with hx | ⟨rest, hx⟩ <;> simp only [fetch, State.readByte, hx]
  simp only [step, hp, hfetch]

/-- Settles O5: the step feeds the byte, which is running the row it decodes to. -/
theorem stepRunsDecodedByte : Obligations.StepRunsDecodedByte := by
  intro s b rest i hp hx hi
  rw [decode_rx_cons] at hi
  cases hi
  rw [step_of_byte hp hx, feed_eq_exec]

/-- Settles O6, by the step's two other branches. -/
theorem stepWithoutByte : Obligations.StepWithoutByte :=
  fun _ => ⟨fun _ _ => step_of_pending, step_of_idle, rfl⟩

/-! ## What a run keeps, and what it carries along unread -/

/-- From `s` to `t` the configuration is kept and stays frozen, no counter is lowered, and no event is taken back. -/
structure Grows (s t : State) : Prop where
  cfg : t.cfg = s.cfg
  frozen : s.frozen = true → t.frozen = true
  bytesSeen : s.cnt.bytesSeen ≤ t.cnt.bytesSeen
  framesSeen : s.cnt.framesSeen ≤ t.cnt.framesSeen
  framesProcessed : s.cnt.framesProcessed ≤ t.cnt.framesProcessed
  parserErrors : s.cnt.parserErrors ≤ t.cnt.parserErrors
  pollTicks : s.cnt.pollTicks ≤ t.cnt.pollTicks
  events : s.events <+: t.events

theorem Grows.refl (s : State) : Grows s s :=
  ⟨rfl, id, le_rfl, le_rfl, le_rfl, le_rfl, le_rfl, [], List.append_nil _⟩

theorem Grows.trans {s t u : State} (h : Grows s t) (k : Grows t u) : Grows s u where
  cfg := k.cfg.trans h.cfg
  frozen := k.frozen ∘ h.frozen
  bytesSeen := h.bytesSeen.trans k.bytesSeen
  framesSeen := h.framesSeen.trans k.framesSeen
  framesProcessed := h.framesProcessed.trans k.framesProcessed
  parserErrors := h.parserErrors.trans k.parserErrors
  pollTicks := h.pollTicks.trans k.pollTicks
  events := h.events.trans k.events

/-- Every byte leaves the configuration frozen (R16, log entry 7). -/
theorem feed_frozen {b : Byte} {s t : State} (h : feed b s = .next t) : t.frozen = true := by
  rcases feed_next_cases h with ⟨c, rfl⟩ | ⟨-, -, br, rfl⟩ | ⟨p, m, rfl, -⟩
  · rfl
  · obtain ⟨-, -, -, hfrozen, -⟩ := dispatch_frame s.countByte
    exact hfrozen
  · rfl

/-- Every byte only grows the state, by its three ways. -/
theorem feed_grows {b : Byte} {s t : State} (h : feed b s = .next t) : Grows s t := by
  have hfrozen := feed_frozen h
  rcases feed_next_cases h with ⟨c, rfl⟩ | ⟨-, -, br, rfl⟩ | ⟨p, m, rfl, -⟩
  · exact ⟨rfl, fun _ => hfrozen, Nat.le_succ _, le_rfl, le_rfl, Nat.le_succ _, le_rfl, (Grows.refl s).events⟩
  · obtain ⟨-, hcnt, hcfg, -, es, hevents⟩ := dispatch_frame s.countByte
    refine ⟨hcfg, fun _ => hfrozen, ?_, ?_, ?_, ?_, ?_, ⟨es, hevents.symm⟩⟩ <;> simp [hcnt]
  · exact ⟨rfl, fun _ => hfrozen, Nat.le_succ _, le_rfl, le_rfl, le_rfl, le_rfl, (Grows.refl s).events⟩

/-- What holds at the start of a run and is kept by every byte holds at its end. -/
theorem feedAll_induction {P : State → Prop} (hP : ∀ b s t, P s → feed b s = .next t → P t)
    {bs : List Byte} {s t : State} (hs : P s) (h : feedAll bs s = .next t) : P t := by
  induction bs generalizing s with
  | nil => cases h; exact hs
  | cons b bs ih =>
    obtain ⟨u, hu, hrest⟩ := andThen_next_iff.mp h
    exact ih (hP b s u hs hu) hrest

theorem feedAll_grows {bs : List Byte} {s t : State} (h : feedAll bs s = .next t) : Grows s t :=
  feedAll_induction (P := Grows s) (fun _ _ _ hs hu => hs.trans (feed_grows hu)) (Grows.refl s) h

/-- A run leaves `RX`, the pending moves and the tick count. -/
theorem feedAll_keeps_queue {bs : List Byte} {s t : State} (h : feedAll bs s = .next t) :
    t.rx = s.rx ∧ t.pending = s.pending ∧ t.cnt.pollTicks = s.cnt.pollTicks := by
  have hself := feedAll_withQueue s.rx s.pending s.cnt.pollTicks bs s
  rw [show s.withQueue s.rx s.pending s.cnt.pollTicks = s from rfl, h, andThen_next, Host.Outcome.next.injEq] at hself
  rw [hself]
  exact ⟨rfl, rfl, rfl⟩

/-- Outcomes with one continuation on the states that are reached. -/
theorem andThen_congr {o : Host.Outcome State Fault Refusal} {k l : State → Host.Outcome State Fault Refusal}
    (h : ∀ t, o = .next t → k t = l t) : andThen o k = andThen o l := by
  cases o with
  | next t => exact h t rfl
  | fault r => rfl
  | refused r => rfl

/-- A run with another `RX`. -/
theorem feedAll_withRx (r : List (Option Byte)) (bs : List Byte) (s : State) :
    feedAll bs { s with rx := r } = andThen (feedAll bs s) fun u => .next { u with rx := r } := by
  refine (feedAll_withQueue r s.pending s.cnt.pollTicks bs s).trans (andThen_congr fun t ht => ?_)
  obtain ⟨-, hpending, hticks⟩ := feedAll_keeps_queue ht
  rw [← hpending, ← hticks]
  rfl

/-- A run with another tick count. -/
theorem feedAll_withTicks (k : Nat) (bs : List Byte) (s : State) :
    feedAll bs { s with cnt := { s.cnt with pollTicks := k } } =
      andThen (feedAll bs s) fun u => .next { u with cnt := { u.cnt with pollTicks := k } } := by
  refine (feedAll_withQueue s.rx s.pending k bs s).trans (andThen_congr fun t ht => ?_)
  obtain ⟨hrx, hpending, -⟩ := feedAll_keeps_queue ht
  rw [← hrx, ← hpending]
  rfl

/-! ## The service call -/

/-- A service call (R201, D17): the bytes up to the first `none` are fed after the entry, and the `none` is taken. -/
theorem exec_service_eq {s : State} (bs : List Byte) (rest : List (Option Byte))
    (hr : rest = [] ∨ ∃ r, rest = none :: r) (hx : s.rx = bs.map some ++ rest) :
    exec .service s = feedAll bs { s.enterService with rx := rest.tail } := by
  have hlen : bs.length + rest.length ≤ s.bytesAvailable := by
    simp [State.bytesAvailable, hx]
  have hdrain := drain_eq bs s.bytesAvailable rest s.enterService hr hx hlen
  rw [show exec .service s = drain s.bytesAvailable s.enterService from rfl, hdrain,
    feedAll_withRx [] bs, feedAll_withRx rest.tail bs, andThen_assoc]
  simp only [andThen_next]

/-- A service call that reads to the end of `RX`. -/
theorem exec_service_of_bytes {s : State} {bs : List Byte} (hx : s.rx = bs.map some) :
    exec .service s = feedAll bs { s.enterService with rx := [] } :=
  exec_service_eq bs [] (.inl rfl) (by rw [hx, List.append_nil])

/-- Settles O48, by the two shapes of `RX`. -/
theorem serviceFeedsAvailableBytes : Obligations.ServiceFeedsAvailableBytes :=
  fun _ bs rest => ⟨exec_service_of_bytes, exec_service_eq bs (none :: rest) (.inr ⟨rest, rfl⟩)⟩

/-- A run of one byte. -/
theorem feedAll_singleton (b : Byte) (s : State) : feedAll [b] s = feed b s := by
  simp only [feedAll]
  cases feed b s <;> rfl

/-- A run goes on from the next state of its first step, and stops where that stops. -/
theorem core_run_succ (M : Host.Core) (n : Nat) (s : M.State) :
    (∀ t, M.step s = .next t → M.run (n + 1) s = M.run n t) ∧
    (∀ r, M.step s = .fault r → M.run (n + 1) s = .fault r) ∧
    (∀ r, M.step s = .refused r → M.run (n + 1) s = .refused r) := by
  refine ⟨fun t h => ?_, fun r h => ?_, fun r h => ?_⟩ <;> rw [Host.Core.run, h]

/-- A run of machine steps begins with a step. -/
theorem run_succ (n : Nat) (s : State) :
    Sys2Proof.core.run (n + 1) s = andThen (step s) (Sys2Proof.core.run n) := by
  obtain ⟨hnext, hfault, hrefused⟩ := core_run_succ Sys2Proof.core n s
  cases h : step s with
  | next t => exact hnext t h
  | fault r => exact hfault r h
  | refused r => exact hrefused r h

/-- With no move pending, as many steps as `RX` holds bytes feed them all (R207). -/
theorem run_eq_feedAll (bs : List Byte) {s : State} (hp : s.pending = []) (hx : s.rx = bs.map some) :
    Sys2Proof.core.run bs.length s = feedAll bs { s with rx := [] } := by
  induction bs generalizing s with
  | nil =>
    rw [← show s.rx = [] from hx]
    rfl
  | cons b bs ih =>
    have hfirst : feed b { s with rx := [] } =
        andThen (feed b { s with rx := bs.map some }) fun u => .next { u with rx := [] } := by
      simpa only [feedAll_singleton] using feedAll_withRx [] [b] { s with rx := bs.map some }
    rw [List.length_cons, run_succ, step_of_byte hp hx, feedAll, hfirst, andThen_assoc]
    refine andThen_congr fun u hu => ?_
    rw [andThen_next]
    exact ih ((feed_pending hu).trans hp) (feed_rx hu)

/-- Settles O49: both are the run of the bytes after the entry. -/
theorem serviceIsIteratedStep : Obligations.ServiceIsIteratedStep := by
  intro s bs hp hx
  rw [exec_service_of_bytes hx]
  exact (run_eq_feedAll bs (s := s.enterService) hp hx).symm

/-- Settles O50: the second call's bytes are fed after the first's, and its tick passes through the run unread. -/
theorem groupingIrrelevant : Obligations.GroupingIrrelevant := by
  intro s bs cs hx
  rw [exec_service_of_bytes hx, exec_service_of_bytes (bs := bs ++ cs) rfl]
  show _ = andThen (feedAll (bs ++ cs) { s.enterService with rx := [] }) _
  rw [feedAll_append, andThen_assoc]
  refine andThen_congr fun t ht => ?_
  obtain ⟨hrx, -, -⟩ := feedAll_keeps_queue ht
  have hrx' : t.rx = [] := hrx
  have hfrozen : t.frozen = true := (feedAll_grows ht).frozen rfl
  have hsecond : exec .service { t with rx := t.rx ++ cs.map some } = feedAll cs { t.enterService with rx := [] } :=
    exec_service_of_bytes (by rw [hrx', List.nil_append])
  have hentry : ({ t.enterService with rx := [] } : State) =
      { t with cnt := { t.cnt with pollTicks := t.cnt.pollTicks + 1 } } := by
    rw [← hrx', State.enterService, ← hfrozen]
  rw [hsecond, hentry, feedAll_withTicks]
  refine andThen_congr fun u hu => ?_
  obtain ⟨-, -, hticks⟩ := feedAll_keeps_queue hu
  rw [hticks]

end Sys2Proof.Machine
end

section
/-!
PROOFS. The whole machine: the invariant that every step keeps, what only grows, and what the environment can stop.
-/

namespace Sys2Proof.Machine

/-! ## All a step can do -/

/-- How a step from `s` answers a next state: a byte fed, a `service()` call, planned or idle, or another planned move
of the environment. -/
inductive StepsTo (s : State) : State → Prop
  | byte {b : Byte} {rest : List (Option Byte)} {t : State} (hpending : s.pending = [])
      (h : feed b { s with rx := rest } = .next t) : StepsTo s t
  | service {bs : List Byte} {rest : List HostCall} {left : List (Option Byte)} {t : State}
      (h : feedAll bs { s.enterService with pending := rest, rx := left } = .next t) : StepsTo s t
  | arrive (items : List (Option Byte)) {rest : List HostCall} (hpending : s.pending = .arrive items :: rest) :
      StepsTo s { s with pending := rest, rx := s.rx ++ items }
  | registerInit {rest : List HostCall} (hpending : s.pending = .registerInit :: rest) (hfrozen : s.frozen = false) :
      StepsTo s { s with pending := rest, cfg := { s.cfg with initPresent := true } }
  | registerInput (n : Nat) {rest : List HostCall} (hpending : s.pending = .registerInput n :: rest)
      (hfrozen : s.frozen = false) :
      StepsTo s
        { s with
          pending := rest
          cfg := { s.cfg with inputCount := some n }
          ibank := some (List.replicate n false) }
  | registerOutput (n : Nat) {rest : List HostCall} (hpending : s.pending = .registerOutput n :: rest)
      (hfrozen : s.frozen = false) :
      StepsTo s
        { s with
          pending := rest
          cfg := { s.cfg with outputCount := some n }
          obank := some (List.replicate n false) }
  | hardwareReset {rest : List HostCall} (hpending : s.pending = .hardwareReset :: rest) :
      StepsTo s (hardwareReset { s with pending := rest })

/-- A `service()` call that answers a next state is a run after its entry. -/
theorem exec_service_next {s t : State} (h : exec .service s = .next t) :
    ∃ bs left, feedAll bs { s.enterService with rx := left } = .next t := by
  obtain ⟨bs, rest, hr, hx⟩ := rx_split s.rx
  rw [exec_service_eq bs rest hr hx] at h
  exact ⟨bs, _, h⟩

/-- A step that answers a next state did one of these. -/
theorem stepsTo_of_next {s t : State} (h : step s = .next t) : StepsTo s t := by
  cases hp : s.pending with
  | nil =>
    have hidle : (s.rx = [] ∨ ∃ rest, s.rx = none :: rest) → StepsTo s t := by
      intro hx
      rw [step_of_idle hp hx] at h
      obtain ⟨bs, left, hrun⟩ := exec_service_next h
      exact .service (rest := s.pending) hrun
    rcases hx : s.rx with _ | ⟨_ | b, rest⟩
    · exact hidle (.inl hx)
    · exact hidle (.inr ⟨rest, hx⟩)
    · rw [step_of_byte hp hx] at h
      exact .byte hp h
  | cons c rest =>
    rw [step_of_pending hp] at h
    cases c with
    | service =>
      obtain ⟨bs, left, hrun⟩ := exec_service_next h
      exact .service hrun
    | arrive items =>
      cases h
      exact .arrive items hp
    | registerInit =>
      simp only [hostCall, registerInit] at h
      obtain ⟨-, hfrozen, rfl⟩ := register_next h
      exact .registerInit hp hfrozen
    | registerInput n =>
      simp only [hostCall, registerInput] at h
      obtain ⟨-, hfrozen, rfl⟩ := register_next h
      exact .registerInput n hp hfrozen
    | registerOutput n =>
      simp only [hostCall, registerOutput] at h
      obtain ⟨-, hfrozen, rfl⟩ := register_next h
      exact .registerOutput n hp hfrozen
    | hardwareReset =>
      cases h
      exact .hardwareReset hp

/-! ## The invariant -/

/-- The invariant says nothing about `RX` and the pending moves. -/
theorem State.Inv.withRxPending {s : State} (h : s.Inv) (rx : List (Option Byte)) (pending : List HostCall) :
    { s with rx := rx, pending := pending }.Inv :=
  ⟨h.maxPositive, h.payloadWf, h.inputBank, h.outputBank, h.header, h.counted, h.processed, h.fresh⟩

/-- The entry of `service()` keeps it: from then on the counters need not be fresh. -/
theorem State.Inv.enterService {s : State} (h : s.Inv) : s.enterService.Inv :=
  ⟨h.maxPositive, h.payloadWf, h.inputBank, h.outputBank, h.header, h.counted, h.processed, fun hf => by cases hf⟩

/-- A dispatched frame resizes no bank (R27). -/
theorem dispatch_bank_lengths (s : State) :
    s.dispatch.ibank.map List.length = s.ibank.map List.length ∧
    s.dispatch.obank.map List.length = s.obank.map List.length := by
  rcases dispatch_cases s with ⟨-, heq⟩ | ⟨-, heq⟩ <;> rw [heq]
  · rcases route_cases s.msg s.countSeen.countProcessed with ⟨-, he⟩ | ⟨-, he⟩ | ⟨-, he⟩ | ⟨-, he⟩ <;> rw [he]
    · obtain ⟨hobank, ⟨hibank, -, -⟩, -⟩ := initHandler_frame s.msg s.countSeen.countProcessed
      rw [hobank, hibank]
      exact ⟨rfl, rfl⟩
    · obtain ⟨⟨hibank, -, -⟩, -⟩ := applyOutputs_frame s.msg s.countSeen.countProcessed
      refine ⟨congrArg _ hibank, ?_⟩
      rcases Option.eq_none_or_eq_some s.obank with hnone | ⟨bank, hbank⟩
      · rw [applyOutputs_none _ (s := s.countSeen.countProcessed) hnone]
        rfl
      · rw [applyOutputs_eq _ (s := s.countSeen.countProcessed) hbank, hbank]
        simp
    · obtain ⟨hobank, -⟩ := pollInputs_frame s.countSeen.countProcessed
      refine ⟨?_, congrArg _ hobank⟩
      rcases Option.eq_none_or_eq_some s.ibank with hnone | ⟨bank, hbank⟩
      · rw [pollInputs_none (s := s.countSeen.countProcessed) hnone]
        rfl
      · rw [pollInputs_eq (s := s.countSeen.countProcessed) hbank, hbank]
        simp
    · exact ⟨rfl, rfl⟩
  · exact ⟨rfl, rfl⟩

/-- Every byte keeps the invariant, by the three things it can do. -/
theorem feed_keeps_inv (b : Byte) (s t : State) (hs : s.Inv) (h : feed b s = .next t) : t.Inv := by
  have hfresh : t.frozen = false → t.cnt = Counters.zero := fun hf => by simp [feed_frozen h] at hf
  have hcounted := hs.counted
  have hprocessed := hs.processed
  rcases feed_next_cases h with ⟨c, rfl⟩ | ⟨-, -, br, rfl⟩ | ⟨p, m, rfl, hadv⟩
  · refine ⟨hs.maxPositive, InFlightMessage.wf_cleared _, hs.inputBank, hs.outputBank, rfl, ?_, hprocessed, hfresh⟩
    simp only [State.raiseFramingError_cnt, State.countByte_cnt]
    omega
  · obtain ⟨hmsg, hcnt, hcfg, -, -⟩ := dispatch_frame s.countByte
    obtain ⟨hibank, hobank⟩ := dispatch_bank_lengths s.countByte
    constructor
    case maxPositive => simpa [hcfg] using hs.maxPositive
    case payloadWf => simpa [hcfg, hmsg] using hs.payloadWf
    case inputBank => simpa [hcfg, hibank] using hs.inputBank
    case outputBank => simpa [hcfg, hobank] using hs.outputBank
    case header => rfl
    case counted =>
      simp only [hcnt, State.countByte_cnt]
      omega
    case processed =>
      simp only [hcnt, State.countByte_cnt]
      split <;> omega
    case fresh => exact hfresh
  · refine ⟨hs.maxPositive, hadv.payloadWf hs.payloadWf, hs.inputBank, hs.outputBank, hadv.header hs.header, ?_,
      hprocessed, hfresh⟩
    simp only [State.countByte_cnt]
    omega

/-- A hardware reset keeps it: cleared record, banks of the configured lengths, counters 0 (R252). -/
theorem hardwareReset_keeps_inv {s : State} (h : s.Inv) : (hardwareReset s).Inv where
  maxPositive := h.maxPositive
  payloadWf := InFlightMessage.wf_cleared _
  inputBank := by simp [hardwareReset, Function.comp_def]
  outputBank := by simp [hardwareReset, Function.comp_def]
  header := rfl
  counted := le_rfl
  processed := le_rfl
  fresh := fun _ => rfl

/-- Settles O53, by what the step was: bytes keep the invariant one by one, and each planned move keeps it. -/
theorem stepKeepsInvariant : Obligations.StepKeepsInvariant := by
  intro s t hs h
  cases stepsTo_of_next h with
  | @byte b rest _ _ hfeed => exact feed_keeps_inv b _ t (hs.withRxPending rest s.pending) hfeed
  | service hrun => exact feedAll_induction feed_keeps_inv (hs.enterService.withRxPending _ _) hrun
  | arrive items _ => exact hs.withRxPending _ _
  | registerInit _ _ =>
    exact ⟨hs.maxPositive, hs.payloadWf, hs.inputBank, hs.outputBank, hs.header, hs.counted, hs.processed, hs.fresh⟩
  | registerInput n _ _ =>
    exact ⟨hs.maxPositive, hs.payloadWf, by simp, hs.outputBank, hs.header, hs.counted, hs.processed, hs.fresh⟩
  | registerOutput n _ _ =>
    exact ⟨hs.maxPositive, hs.payloadWf, hs.inputBank, by simp, hs.header, hs.counted, hs.processed, hs.fresh⟩
  | hardwareReset _ => exact hardwareReset_keeps_inv (hs.withRxPending s.rx _)

/-- Settles O54, clause by clause. -/
theorem resetSatisfiesInvariant : Obligations.ResetSatisfiesInvariant where
  maxPositive := by decide
  payloadWf := State.reset_payload_wf
  inputBank := rfl
  outputBank := rfl
  header := rfl
  counted := le_rfl
  processed := le_rfl
  fresh := fun _ => rfl

/-! ## What only grows -/

/-- A `service()` call grows the state, and leaves the configuration frozen. -/
theorem service_grows {bs : List Byte} {s t : State} {rest : List HostCall} {left : List (Option Byte)}
    (h : feedAll bs { s.enterService with pending := rest, rx := left } = .next t) : Grows s t ∧ t.frozen = true := by
  have hentry : Grows s { s.enterService with pending := rest, rx := left } :=
    ⟨rfl, fun _ => rfl, le_rfl, le_rfl, le_rfl, le_rfl, Nat.le_succ _, (Grows.refl s).events⟩
  have hrun := feedAll_grows h
  exact ⟨hentry.trans hrun, hrun.frozen rfl⟩

/-- A byte fed from `RX` grows the state. -/
theorem byte_grows {b : Byte} {s t : State} {rest : List (Option Byte)} (h : feed b { s with rx := rest } = .next t) :
    Grows s t :=
  Grows.trans (t := { s with rx := rest })
    ⟨rfl, id, le_rfl, le_rfl, le_rfl, le_rfl, le_rfl, (Grows.refl s).events⟩ (feed_grows h)

/-- Settles O55: bytes and calls keep the configuration and freeze it, and the moves that change it need it unfrozen. -/
theorem frozenConfigurationKept : Obligations.FrozenConfigurationKept := by
  intro s t h
  cases stepsTo_of_next h with
  | byte _ hfeed =>
    have hkept := And.intro (byte_grows hfeed).cfg (feed_frozen hfeed)
    exact ⟨fun _ => hkept, fun _ => hkept⟩
  | service hrun =>
    obtain ⟨hgrows, hfrozen⟩ := service_grows hrun
    exact ⟨fun _ => ⟨hgrows.cfg, hfrozen⟩, fun _ => ⟨hgrows.cfg, hfrozen⟩⟩
  | arrive items hp => exact ⟨fun hf => ⟨rfl, hf⟩, fun hnil => by simp [hp] at hnil⟩
  | registerInit hp hthawed => exact ⟨fun hf => by simp [hthawed] at hf, fun hnil => by simp [hp] at hnil⟩
  | registerInput n hp hthawed => exact ⟨fun hf => by simp [hthawed] at hf, fun hnil => by simp [hp] at hnil⟩
  | registerOutput n hp hthawed => exact ⟨fun hf => by simp [hthawed] at hf, fun hnil => by simp [hp] at hnil⟩
  | hardwareReset hp => exact ⟨fun hf => ⟨rfl, hf⟩, fun hnil => by simp [hp] at hnil⟩

/-- What a growing state says of the counters and the events. -/
theorem Grows.counters_and_events {s t : State} (h : Grows s t) :
    (s.cnt.bytesSeen ≤ t.cnt.bytesSeen ∧ s.cnt.framesSeen ≤ t.cnt.framesSeen ∧
      s.cnt.framesProcessed ≤ t.cnt.framesProcessed ∧ s.cnt.parserErrors ≤ t.cnt.parserErrors ∧
      s.cnt.pollTicks ≤ t.cnt.pollTicks) ∧ s.events <+: t.events :=
  ⟨⟨h.bytesSeen, h.framesSeen, h.framesProcessed, h.parserErrors, h.pollTicks⟩, h.events⟩

/-- Settles O56: bytes and calls grow the state, the other moves but a hardware reset leave counters and events. -/
theorem countersAndEventsOnlyGrow : Obligations.CountersAndEventsOnlyGrow := by
  intro s t h
  have hsame : (s.cnt.bytesSeen ≤ s.cnt.bytesSeen ∧ s.cnt.framesSeen ≤ s.cnt.framesSeen ∧
      s.cnt.framesProcessed ≤ s.cnt.framesProcessed ∧ s.cnt.parserErrors ≤ s.cnt.parserErrors ∧
      s.cnt.pollTicks ≤ s.cnt.pollTicks) ∧ s.events <+: s.events := (Grows.refl s).counters_and_events
  cases stepsTo_of_next h with
  | byte _ hfeed => exact (byte_grows hfeed).counters_and_events.imp_left fun hc _ => hc
  | service hrun => exact (service_grows hrun).1.counters_and_events.imp_left fun hc _ => hc
  | arrive items _ => exact hsame.imp_left fun hc _ => hc
  | registerInit _ _ => exact hsame.imp_left fun hc _ => hc
  | registerInput n _ _ => exact hsame.imp_left fun hc _ => hc
  | registerOutput n _ _ => exact hsame.imp_left fun hc _ => hc
  | hardwareReset hp => exact ⟨fun hne => absurd (by rw [hp]; rfl) hne, (Grows.refl s).events⟩

/-! ## Completion, and the one way to stop -/

/-- In an environment that keeps its duties every instruction completes, and the environment goes on doing so. -/
theorem exec_completes (i : Instr) {s : State} (h : s.breach = none) : ∃ t, exec i s = .next t ∧ t.breach = none := by
  by_cases hi : i = .service
  · subst hi
    obtain ⟨bs, rest, hr, hx⟩ := rx_split s.rx
    rw [exec_service_eq bs rest hr hx]
    exact feedAll_completes bs h
  · exact ⟨_, exec_of_breach_none hi h, (effect_breach i s).trans h⟩

/-- Settles O51: instructions complete, and a step is a `service()` call, a byte fed, or a move that completes. -/
theorem everyInstructionCompletes : Obligations.EveryInstructionCompletes := by
  refine fun s hb => ⟨fun i => exec_completes i hb, fun hmove => ?_⟩
  have hservice (rest : List HostCall) : ∃ t, exec .service { s with pending := rest } = .next t :=
    (exec_completes .service (s := { s with pending := rest }) hb).imp fun _ ht => ht.1
  cases hp : s.pending with
  | nil =>
    rcases hx : s.rx with _ | ⟨_ | b, rest⟩
    · rw [step_of_idle hp (.inl hx)]
      exact hservice s.pending
    · rw [step_of_idle hp (.inr ⟨rest, hx⟩)]
      exact hservice s.pending
    · rw [step_of_byte hp hx, feed_eq_exec]
      exact (exec_completes _ (s := { s with rx := rest }) hb).imp fun _ ht => ht.1
  | cons c rest =>
    rw [step_of_pending hp]
    obtain ⟨hinit, hbanks⟩ := hmove c (by rw [hp]; rfl)
    cases c with
    | service => exact hservice rest
    | arrive items => exact ⟨_, rfl⟩
    | registerInit => exact absurd rfl hinit
    | registerInput n => exact absurd rfl (hbanks n).1
    | registerOutput n => exact absurd rfl (hbanks n).2
    | hardwareReset => exact ⟨_, rfl⟩

/-- The end of a step in an environment that keeps its duties for `k` more calls (R206, R260, R204). -/
theorem settle_withBreach (k : Nat) (kind : BreachKind) (s t : State) :
    settle { s with breach := some { after := k, kind := kind } } t =
      if callsMade s t ≤ k then .next { t with breach := some { after := k - callsMade s t, kind := kind } }
      else if kind = .neverReturns then .fault .stuck
      else .refused .reentrantCall := by
  cases kind <;> rfl

/-- Steps in sequence end as one step that makes all their calls: the breach comes at the same call. -/
theorem settle_trans {s u t : State} (hsu : s.events.length ≤ u.events.length) (hut : u.events.length ≤ t.events.length)
    {k : State → Host.Outcome State Fault Refusal}
    (hk : ∀ br, k { u with breach := some br } = settle { u with breach := some br } t) (br : Breach) :
    andThen (settle { s with breach := some br } u) k = settle { s with breach := some br } t := by
  obtain ⟨n, kind⟩ := br
  have hcalls : callsMade s t = callsMade s u + callsMade u t := by
    simp only [callsMade]
    omega
  rw [settle_withBreach, settle_withBreach, hcalls]
  by_cases hfirst : callsMade s u ≤ n
  · rw [if_pos hfirst, andThen_next, hk, settle_withBreach, Nat.sub_sub]
    by_cases hboth : callsMade s u + callsMade u t ≤ n
    · rw [if_pos hboth, if_pos (by omega)]
    · rw [if_neg hboth, if_neg (by omega)]
  · have hover : ¬ callsMade s u + callsMade u t ≤ n := by omega
    rw [if_neg hfirst, if_neg hover]
    cases kind <;> rfl

/-- An instruction that is one effect stops exactly at the call the environment breaks. -/
theorem exec_withBreach {i : Instr} (hi : i ≠ .service) (s : State) (br : Breach) :
    exec i { s with breach := some br } = settle { s with breach := some br } (effect i s) := by
  have heff := effect_withEnv s.rx s.pending (some br) s.cnt.pollTicks s i
  have hself := effect_eq_withEnv i s
  rw [exec_eq_settle hi]
  show settle { s with breach := some br } (effect i (s.withEnv s.rx s.pending (some br) s.cnt.pollTicks)) = _
  rw [heff, hself]
  rfl

/-- So does a run, by induction on its bytes. -/
theorem feedAll_withBreach (bs : List Byte) {s t : State} (hb : s.breach = none) (h : feedAll bs s = .next t)
    (br : Breach) : feedAll bs { s with breach := some br } = settle { s with breach := some br } t := by
  induction bs generalizing s br with
  | nil =>
    cases h
    rw [settle_withBreach]
    simp [feedAll, callsMade]
  | cons b bs ih =>
    obtain ⟨u, hu, hrest⟩ := andThen_next_iff.mp h
    obtain ⟨-, -, hsame⟩ := feed_next hu
    have heff := hsame hb
    have hub : u.breach = none := by rw [heff, effect_breach, hb]
    have hfirst : feed b { s with breach := some br } = settle { s with breach := some br } u := by
      rw [feed_eq_exec, exec_withBreach (decodeRx_ne_service _ _ _), heff]
    rw [feedAll, hfirst]
    exact settle_trans (feed_grows hu).events.length_le (feedAll_grows hrest).events.length_le (ih hub hrest) br

/-- Settles O52: SERVICE is a run, every other instruction one effect, and `settle_withBreach` says where each stops. -/
theorem breachStopsAtItsCall : Obligations.BreachStopsAtItsCall := by
  intro i s t k kind hb h
  refine Eq.trans ?_ (settle_withBreach k kind s t)
  by_cases hi : i = .service
  · subst hi
    obtain ⟨bs, rest, hr, hx⟩ := rx_split s.rx
    rw [exec_service_eq bs rest hr hx] at h
    rw [exec_service_eq (s := { s with breach := some { after := k, kind := kind } }) bs rest hr hx]
    exact feedAll_withBreach bs (s := { s.enterService with rx := rest.tail }) hb h _
  · rw [exec_of_breach_none hi hb] at h
    cases h
    exact exec_withBreach hi s _

/-! ## The answers to init calls -/

/-- The state with other coming answers to init calls. -/
def State.withInits (replies : List Bool) (s : State) : State :=
  { s with answers := { s.answers with inits := replies } }

section
variable (r : List Bool) (s : State)

theorem initHandler_withInits (m : InFlightMessage) :
    ∃ left, (s.withInits r).initHandler m = (s.initHandler m).withInits left := by
  rw [initHandler_eq, initHandler_eq]
  by_cases h : s.cfg.initPresent = true
  · exact ⟨r.tail, by rw [if_pos h, if_pos (show (s.withInits r).cfg.initPresent = true from h)]; rfl⟩
  · exact ⟨r, by rw [if_neg h, if_neg (show ¬ (s.withInits r).cfg.initPresent = true from h)]⟩

theorem applyOutputs_withInits (m : InFlightMessage) :
    (s.withInits r).applyOutputs m = (s.applyOutputs m).withInits r := by
  rcases Option.eq_none_or_eq_some s.obank with hnone | ⟨bank, hbank⟩
  · rw [applyOutputs_none m hnone, applyOutputs_none m (s := s.withInits r) hnone]
  · rw [applyOutputs_eq m hbank, applyOutputs_eq m (s := s.withInits r) hbank]
    rfl

theorem sendResponse_withInits : (s.withInits r).sendResponse = s.sendResponse.withInits r := by
  rcases Option.eq_none_or_eq_some s.ibank with hnone | ⟨bank, hbank⟩
  · rw [sendResponse_none hnone, sendResponse_none (s := s.withInits r) hnone]
  · have hplain := sendResponse_eq hbank
    have hother := sendResponse_eq (s := s.withInits r) hbank
    by_cases hfit : rlen s.cfg.rLenPolicy bank.length < s.cfg.maxMsgLen
    · rw [hplain.trans (if_pos hfit), hother.trans (if_pos hfit)]
      rfl
    · rw [hplain.trans (if_neg hfit), hother.trans (if_neg hfit)]

theorem pollInputs_withInits : (s.withInits r).pollInputs = s.pollInputs.withInits r := by
  rcases Option.eq_none_or_eq_some s.ibank with hnone | ⟨bank, hbank⟩
  · rw [pollInputs_none hnone, pollInputs_none (s := s.withInits r) hnone]
  · rw [pollInputs_eq hbank, pollInputs_eq (s := s.withInits r) hbank]
    rfl

theorem takeData_withInits (x : Byte) : (s.withInits r).takeData x = (s.takeData x).withInits r := by
  by_cases h : s.msg.length < s.cfg.maxMsgLen
  · rw [takeData_of_lt h, takeData_of_lt (s := s.withInits r) h]
    rfl
  · have hfull := Nat.le_of_not_lt h
    rw [takeData_of_full hfull, takeData_of_full (s := s.withInits r) hfull]
    rfl

/-- Only `init_handler` uses the answers up (R142). -/
theorem route_withInits (m : InFlightMessage) : ∃ left, (s.withInits r).route m = (s.route m).withInits left := by
  simp only [State.route]
  by_cases hI : m.mtype = tagI
  · simp only [if_pos hI]
    exact initHandler_withInits r s m
  · simp only [if_neg hI, applyOutputs_withInits, pollInputs_withInits, ← apply_ite (State.withInits r)]
    exact ⟨r, rfl⟩

theorem dispatch_withInits : ∃ left, (s.withInits r).dispatch = s.dispatch.withInits left := by
  by_cases hdest : s.msg.dest = nodeAddress s.cfg
  · rw [dispatch_of_eq hdest, dispatch_of_eq (s := s.withInits r) hdest]
    exact route_withInits r s.countSeen.countProcessed s.msg
  · rw [dispatch_of_ne hdest, dispatch_of_ne (s := s.withInits r) hdest]
    exact ⟨r, rfl⟩

theorem endOfFrame_withInits :
    ∃ left, (s.withInits r).countByte.dispatch.goto .start = (s.countByte.dispatch.goto .start).withInits left := by
  obtain ⟨left, h⟩ := dispatch_withInits r s.countByte
  exact ⟨left, congrArg (State.goto .start) h⟩

/-- No effect reads the coming answers to init calls. -/
theorem effect_withInits (i : Instr) : ∃ left, effect i (s.withInits r) = (effect i s).withInits left := by
  have htake (x : Byte) : ∃ left, (s.withInits r).countByte.takeData x = (s.countByte.takeData x).withInits left :=
    ⟨r, takeData_withInits r s.countByte x⟩
  cases i
  case msgI => exact initHandler_withInits r s s.msg
  case msgT => exact ⟨r, applyOutputs_withInits r s s.msg⟩
  case msgP => exact ⟨r, pollInputs_withInits r s⟩
  case msgR => exact ⟨r, sendResponse_withInits r s⟩
  case dispatch => exact dispatch_withInits r s
  case encode t p => exact ⟨r, by simp only [effect, encodeFrame_eq]; rfl⟩
  case rxMaybeDataNextEtx => exact endOfFrame_withInits r s
  case rxMaybeDataNextAttn =>
    cases ha : s.cfg.attnInData with
    | dispatch =>
      rw [effect_attn_dispatch ha, effect_attn_dispatch (s := s.withInits r) ha]
      exact endOfFrame_withInits r s
    | append =>
      rw [effect_attn_append ha, effect_attn_append (s := s.withInits r) ha]
      exact htake 0xFF
  case rxMaybeDataNextStx => exact htake STX
  case rxMaybeDataNextOther b => exact htake b
  case rxDataNextAnyLiberal b => exact htake b
  case rxDataNextCtrlStrict b => exact htake b
  all_goals exact ⟨r, rfl⟩

end

/-- An instruction that is one effect does the same under other answers to init calls. -/
theorem exec_withInits {i : Instr} (hi : i ≠ .service) {s t : State} (r : List Bool) (h : exec i s = .next t) :
    ∃ left, exec i (s.withInits r) = .next (t.withInits left) := by
  obtain ⟨left, heff⟩ := effect_withInits r s i
  have hset := settle_map (s := s) (s' := s.withInits r) (t := effect i s) (State.withInits left) rfl rfl fun _ => rfl
  rw [exec_eq_settle hi] at h
  exact ⟨left, by rw [exec_eq_settle hi, heff, hset, h, andThen_next]⟩

/-- So does a run. -/
theorem feedAll_withInits (bs : List Byte) {s t : State} (r : List Bool) (h : feedAll bs s = .next t) :
    ∃ left, feedAll bs (s.withInits r) = .next (t.withInits left) := by
  induction bs generalizing s r with
  | nil =>
    cases h
    exact ⟨r, rfl⟩
  | cons b bs ih =>
    obtain ⟨u, hu, hrest⟩ := andThen_next_iff.mp h
    rw [feed_eq_exec] at hu
    obtain ⟨between, hfirst⟩ := exec_withInits (decodeRx_ne_service _ _ _) r hu
    obtain ⟨left, hlast⟩ := ih between hrest
    refine ⟨left, ?_⟩
    rw [feedAll, feed_eq_exec]
    show andThen (exec (decodeRx s.cfg.escapePolicy s.state b) (s.withInits r)) _ = _
    rw [hfirst, andThen_next, hlast]

/-- Settles O22: SERVICE is a run, every other instruction one effect. -/
theorem initAnswersInert : Obligations.InitAnswersInert := by
  intro i s t replies h
  by_cases hi : i = .service
  · subst hi
    obtain ⟨bs, rest, hr, hx⟩ := rx_split s.rx
    rw [exec_service_eq bs rest hr hx] at h
    rw [exec_service_eq (s := { s with answers := { s.answers with inits := replies } }) bs rest hr hx]
    exact feedAll_withInits bs replies h
  · exact exec_withInits hi replies h

end Sys2Proof.Machine
end

section
/-!
PROOFS. Construction, registration, hardware reset and the register view (70_reset_and_hazards.md, 10_state.md).
-/

namespace Sys2Proof.Machine

/-- Settles O57, by the two tests of construction. -/
theorem constructInitialState : Obligations.ConstructInitialState := by
  intro id max e a r
  refine ⟨fun h hmax => ?_, fun h => dif_neg (Nat.not_lt.mpr h), fun h hmax => ?_, rfl⟩
  · rw [construct, dif_pos h, if_neg (by omega)]
    rfl
  · rw [construct, dif_pos h, if_pos hmax]

/-- The three outcomes of a registration (R251): the first of its kind in time, a second one, a late one. -/
theorem register_outcomes (already : Bool) (f : State → State) (s : State) :
    (already = false → s.frozen = false → register already f s = .next (f s)) ∧
    (already = true → register already f s = .refused .registeredTwice) ∧
    (already = false → s.frozen = true → register already f s = .refused .registeredLate) := by
  cases already <;> cases hf : s.frozen <;> simp [register, hf]

/-- The registration of a bank, whose kind was registered if its count is configured. -/
theorem register_bank_outcomes (count : Option Nat) (f : State → State) (s : State) :
    (count = none → s.frozen = false → register count.isSome f s = .next (f s)) ∧
    (count ≠ none → register count.isSome f s = .refused .registeredTwice) ∧
    (count = none → s.frozen = true → register count.isSome f s = .refused .registeredLate) := by
  have h := register_outcomes count.isSome f s
  cases count <;> simpa using h

/-- Settles O58: the step makes the pending registration, and a registration has three outcomes. -/
theorem registrationRules : Obligations.RegistrationRules := by
  intro s rest n
  refine ⟨fun hp => ?_, fun hp => ?_, fun hp => ?_⟩ <;> rw [step_of_pending hp]
  · exact register_outcomes s.cfg.initPresent (fun t => { t with cfg := { t.cfg with initPresent := true } })
      { s with pending := rest }
  · exact register_bank_outcomes s.cfg.inputCount
      (fun t => { t with cfg := { t.cfg with inputCount := some n }, ibank := some (List.replicate n false) })
      { s with pending := rest }
  · exact register_bank_outcomes s.cfg.outputCount
      (fun t => { t with cfg := { t.cfg with outputCount := some n }, obank := some (List.replicate n false) })
      { s with pending := rest }

/-- Settles O59: the step makes the pending reset. -/
theorem hardwareResetRestores : Obligations.HardwareResetRestores := by
  intro s rest hp
  rw [step_of_pending hp]
  rfl

/-- The node address does not wrap (R9, R76). -/
theorem toNat_nodeAddress (c : Config) : (nodeAddress c).toNat = c.localId.val + 65 := by
  have := c.localId.isLt
  rw [nodeAddress, BitVec.toNat_ofNat]
  omega

/-- No node address is a control byte (R76): it lies between 41 and C0. -/
theorem byteClass_nodeAddress (c : Config) : byteClass (nodeAddress c) = .other := by
  have hlt := c.localId.isLt
  have hval := toNat_nodeAddress c
  have hne {b : Byte} (hb : b.toNat < 65 ∨ 193 ≤ b.toNat) : nodeAddress c ≠ b := by
    rintro rfl
    omega
  exact byteClass_of_other (hne (by decide)) (hne (by decide)) (hne (by decide)) (hne (by decide))

/-- The nine configuration fields (R29), the coded ones as 0 or 1. -/
theorem configView_fields (c : Config) :
    configView c 0 = some (.number c.localId.val) ∧
    configView c 1 = some (.number (c.localId.val + 65)) ∧
    configView c 2 = some (.number c.maxMsgLen) ∧
    configView c 3 = some (.number (if c.escapePolicy = .strict then 1 else 0)) ∧
    configView c 4 = some (.number (if c.attnInData = .append then 1 else 0)) ∧
    configView c 5 = some (.number (if c.rLenPolicy = .ceil then 1 else 0)) ∧
    configView c 6 = some (.count c.inputCount) ∧
    configView c 7 = some (.count c.outputCount) ∧
    configView c 8 = some (.number (if c.initPresent = true then 1 else 0)) ∧
    ∀ field : Nat, 9 ≤ field → configView c field = none := by
  refine ⟨rfl, ?_, rfl, ?_, ?_, ?_, rfl, rfl, ?_, fun field h => ?_⟩
  · rw [← toNat_nodeAddress]; rfl
  · simp only [configView]; cases c.escapePolicy <;> rfl
  · simp only [configView]; cases c.attnInData <;> rfl
  · simp only [configView]; cases c.rLenPolicy <;> rfl
  · simp only [configView]; cases c.initPresent <;> rfl
  · obtain ⟨k, rfl⟩ := Nat.exists_eq_add_of_le' h
    rfl

/-- The five counters (R28) and no more. -/
theorem counterView_fields (k : Counters) :
    counterView k 0 = some k.bytesSeen ∧ counterView k 1 = some k.framesSeen ∧
    counterView k 2 = some k.framesProcessed ∧ counterView k 3 = some k.parserErrors ∧
    counterView k 4 = some k.pollTicks ∧
    ∀ number : Nat, 5 ≤ number → counterView k number = none := by
  refine ⟨rfl, rfl, rfl, rfl, rfl, fun number h => ?_⟩
  obtain ⟨j, rfl⟩ := Nat.exists_eq_add_of_le' h
  rfl

/-- Settles O60: the address by its bounds, the codes by evaluation, the views field by field. -/
theorem registerViewValues : Obligations.RegisterViewValues := by
  refine ⟨fun c => ⟨toNat_nodeAddress c, ?_, ?_, byteClass_nodeAddress c⟩, ⟨rfl, rfl, rfl, rfl, rfl, rfl, rfl⟩,
    fun p => by cases p <;> rfl, by decide, configView_fields, counterView_fields⟩
  · rw [toNat_nodeAddress]
    omega
  · have := c.localId.isLt
    rw [toNat_nodeAddress]
    omega

end Sys2Proof.Machine
end
